-- ==== Sys2Proof/Word.lean ====
section
/-! DEFINITION. The words of the block: bytes and the 11-bit selection word. -/

namespace Sys2Proof

/-- The spec's `u8` (00_scope.md section 5): `+` and `-` on it are taken modulo 256. -/
abbrev Byte := BitVec 8

/-- The selection word `W = {ovf, st[1:0], b[7:0]}` of rule R45: `ovf` in bit 10, `st` in bits 9:8, `b` in bits 7:0. -/
abbrev SelWord := BitVec 11

end Sys2Proof
end

