-- ==== Sys2Proof/Config.lean ====
section
/-! DEFINITION. The static parameters of the block, the collaborators' command codes, and the free values.

A parameter is a named argument of every definition that reads it (93_implementation_defined.md P1, P2); the machine's
state carries the parameters it was built with, because the step function of the interface takes no other argument
(log entry 1).  A free value is an opaque constant: nothing can evaluate it, so no claim can rest on what it is. -/

namespace Sys2Proof

/-- The parameters fixed when the block is built (rules R5, R6).  `lenMax` is one byte, so `LEN_MAX <= 255` holds by
type; the lower bound is `Params.legal`. -/
structure Params where
  startMarker : Byte
  lenMax      : Byte
deriving DecidableEq, Repr

/-- R6: the legal range `2 <= LEN_MAX <= 255`.  R5 admits every START_MARKER. -/
def Params.legal (P : Params) : Bool := decide (2 ≤ P.lenMax.toNat)

/-- The command codes of R7 and D25: open parameters of the consumer and the responder.  The decoder reads none. -/
structure CommandCodes where
  read    : Byte
  write   : Byte
  ack     : Byte
  nack    : Byte
  reboot  : Byte
  unknown : Byte
deriving DecidableEq, Repr

namespace Config

/-- DESIGN CHOICE (log entry 1): the parameters of `State.reset` and of the opcode-table words, namely the test
instantiation of R7 and D20.  Unsafe: no deployment is claimed to use them. -/
def instantiation : Params := { startMarker := 0x02#8, lenMax := 0x08#8 }

/-! Free values of the registers a reset edge leaves unspecified (R20, R90, X1), by draw number (log entry 3). -/

opaque resetSom     : Nat → Byte
opaque resetLen     : Nat → Byte
opaque resetCnt     : Nat → Byte
opaque resetAcc     : Nat → Byte
opaque resetEvKind  : Nat → BitVec 2
opaque resetEvCause : Nat → BitVec 2
opaque resetEvData  : Nat → Byte

/-! Free values of the outputs outside the windows where they are defined (R26, R50, D21; log entry 4) and before the first
reset edge (R93, X2; log entry 14), by draw number and, for `rd_data`, read index. -/

opaque openInReady  : Nat → Bool
opaque openEvValid  : Nat → Bool
opaque openEvKind   : Nat → BitVec 2
opaque openEvCause  : Nat → BitVec 2
opaque openEvData   : Nat → Byte
opaque openFrameSom : Nat → Byte
opaque openFrameLen : Nat → Byte
opaque openRdData   : Nat → Byte → Byte

end Config

end Sys2Proof
end

