-- ==== Sys2Proof/Syntax.lean ====
section
/-! DEFINITION. The instructions: the eleven operations of rule R45, one constructor per row of the opcode table. -/

namespace Sys2Proof

/-- The values of the state register `st` (R9).  `unused` is the encoding 0b11, which no rule writes and which R73
defines. -/
inductive Phase where
  | idle
  | waitLen
  | waitPayload
  | unused
deriving DecidableEq, Repr

/-- One step's operation (R45, R62).  `b` is the input byte; `ovf` is bit 10 of the selection word where the row leaves
that bit open.  LEN.ZERO fixes its byte to 0x00 and the PAY rows fix `ovf`, so those carry no such operand. -/
inductive Instr where
  /-- IDLE.SOM (R63) -/
  | idleSom (ovf : Bool) (b : Byte)
  /-- IDLE.ASCII (R64) -/
  | idleAscii (ovf : Bool) (b : Byte)
  /-- LEN.ZERO (R65) -/
  | lenZero (ovf : Bool)
  /-- LEN.OVF (R66) -/
  | lenOvf (ovf : Bool) (b : Byte)
  /-- LEN.OK (R67) -/
  | lenOk (ovf : Bool) (b : Byte)
  /-- PAY.STORE (R68) -/
  | payStore (b : Byte)
  /-- PAY.DISCARD (R69) -/
  | payDiscard (b : Byte)
  /-- PAY.END.FRAME (R70) -/
  | payEndFrame (b : Byte)
  /-- PAY.END.BADCS (R71) -/
  | payEndBadcs (b : Byte)
  /-- PAY.END.OVF (R72) -/
  | payEndOvf (b : Byte)
  /-- ST3 (R73) -/
  | st3 (ovf : Bool) (b : Byte)
deriving DecidableEq, Repr

end Sys2Proof
end

