-- ==== Sys2Proof/WellFormed.lean ====
section
/-! DEFINITION. Which instructions a block with given parameters can select: R45's conditions on the input byte. -/

namespace Sys2Proof

/-- R45, the conditions that read only the byte and the parameters.  The conditions on `cnt`, `len` and `acc` are
`Instr.sideOk` (Decode.lean). -/
def Instr.wellFormed (P : Params) : Instr → Bool
  | .idleSom _ b   => decide (b = P.startMarker)
  | .idleAscii _ b => decide (b ≠ P.startMarker)
  | .lenZero _     => true
  | .lenOvf _ b    => decide (b ≠ 0#8) && decide (P.lenMax < b)
  | .lenOk _ b     => decide (b ≠ 0#8) && decide (b ≤ P.lenMax)
  | .payStore _    => true
  | .payDiscard _  => true
  | .payEndFrame _ => true
  | .payEndBadcs _ => true
  | .payEndOvf _   => true
  | .st3 _ _       => true

end Sys2Proof
end

