-- ==== Sys2Proof/Decode.lean ====
section
/-! DEFINITION. Operation selection (R45, R62): from the selection word and the registers `cnt`, `len`, `acc` to the
operation, the word of each operation, and the opcode table. -/

namespace Sys2Proof

/-- The registers the side conditions of R45 read. -/
structure Side where
  cnt : Byte
  len : Byte
  acc : Byte
deriving DecidableEq, Repr

/-- Why a word is no selection word. -/
inductive DecodeError where
  /-- the word has a bit above bit 10 -/
  | wideWord
deriving DecidableEq, Repr

/-- `cnt + 1 == len`, "computed without wrap" (R45). -/
def Side.last (c : Side) : Bool := decide (c.cnt.toNat + 1 = c.len.toNat)

/-- `acc + b == 0` modulo 256 (R45, R59): the zero test on the adder output of this step. -/
def Side.zeroWith (c : Side) (b : Byte) : Bool := decide (c.acc + b = 0#8)

/-- The code of a state (R9). -/
def phaseCode : Phase → BitVec 2
  | .idle        => 0b00#2
  | .waitLen     => 0b01#2
  | .waitPayload => 0b10#2
  | .unused      => 0b11#2

/-- The state a code stands for (R9). -/
def phaseOfCode (c : BitVec 2) : Phase :=
  if c = 0b00#2 then .idle else if c = 0b01#2 then .waitLen else if c = 0b10#2 then .waitPayload else .unused

def wordOvf (w : SelWord) : Bool := w.getLsbD 10

def wordPhase (w : SelWord) : Phase := phaseOfCode (w.extractLsb' 8 2)

def wordByte (w : SelWord) : Byte := w.extractLsb' 0 8

/-- `{ovf, st, b}` (R45). -/
def packWord (ovf : Bool) (st : Phase) (b : Byte) : SelWord := BitVec.ofBool ovf ++ (phaseCode st ++ b)

/-- R62, the case IDLE. -/
def selectIdle (P : Params) (ovf : Bool) (b : Byte) : Instr :=
  if b = P.startMarker then .idleSom ovf b else .idleAscii ovf b

/-- R62, the case WAIT_LEN. -/
def selectLen (P : Params) (ovf : Bool) (b : Byte) : Instr :=
  if b = 0#8 then .lenZero ovf else if P.lenMax < b then .lenOvf ovf b else .lenOk ovf b

/-- R62, the case WAIT_PAYLOAD. -/
def selectPay (c : Side) (ovf : Bool) (b : Byte) : Instr :=
  if c.last then
    if ovf then .payEndOvf b else if c.zeroWith b then .payEndFrame b else .payEndBadcs b
  else
    if ovf then .payDiscard b else .payStore b

/-- R62: the operation of a step, from `st`, `ovf`, the byte and the side conditions.  Total: "No byte value is illegal
in any state" (R46). -/
def selectOp (P : Params) (c : Side) (ovf : Bool) (st : Phase) (b : Byte) : Instr :=
  match st with
  | .idle        => selectIdle P ovf b
  | .waitLen     => selectLen P ovf b
  | .waitPayload => selectPay c ovf b
  | .unused      => .st3 ovf b

/-- R45: the operation a selection word selects. -/
def select (P : Params) (c : Side) (w : SelWord) : Instr := selectOp P c (wordOvf w) (wordPhase w) (wordByte w)

/-- Decoding of any number: a selection word has 11 bits, and a number with a higher bit set is rejected by name
(log entry 10). -/
def decode (P : Params) (c : Side) (w : Nat) : Except DecodeError Instr :=
  if w < 2048 then .ok (select P c (BitVec.ofNat 11 w)) else .error .wideWord

/-- R45, the conditions on `cnt`, `len` and `acc`. -/
def Instr.sideOk (c : Side) : Instr → Bool
  | .idleSom _ _   => true
  | .idleAscii _ _ => true
  | .lenZero _     => true
  | .lenOvf _ _    => true
  | .lenOk _ _     => true
  | .payStore _    => !c.last
  | .payDiscard _  => !c.last
  | .payEndFrame b => c.last && c.zeroWith b
  | .payEndBadcs b => c.last && !c.zeroWith b
  | .payEndOvf _   => c.last
  | .st3 _ _       => true

/-- The selection word of an operation, from the rows of R45. -/
def encode : Instr → SelWord
  | .idleSom ovf b   => packWord ovf .idle b
  | .idleAscii ovf b => packWord ovf .idle b
  | .lenZero ovf     => packWord ovf .waitLen 0x00#8
  | .lenOvf ovf b    => packWord ovf .waitLen b
  | .lenOk ovf b     => packWord ovf .waitLen b
  | .payStore b      => packWord false .waitPayload b
  | .payDiscard b    => packWord true .waitPayload b
  | .payEndFrame b   => packWord false .waitPayload b
  | .payEndBadcs b   => packWord false .waitPayload b
  | .payEndOvf b     => packWord true .waitPayload b
  | .st3 ovf b       => packWord ovf .unused b

/-- A row of spec/opcode_table.json: `W &&& mask = pattern` is its condition on the word. -/
structure OpcodeRow where
  mnemonic : String
  pattern  : SelWord
  mask     : SelWord
deriving DecidableEq, Repr

/-- The row of each operation in spec/opcode_table.json. -/
def tableRow : Instr → OpcodeRow
  | .idleSom _ _   => ⟨"IDLE.SOM", 0x000#11, 0x300#11⟩
  | .idleAscii _ _ => ⟨"IDLE.ASCII", 0x000#11, 0x300#11⟩
  | .lenZero _     => ⟨"LEN.ZERO", 0x100#11, 0x3FF#11⟩
  | .lenOvf _ _    => ⟨"LEN.OVF", 0x100#11, 0x300#11⟩
  | .lenOk _ _     => ⟨"LEN.OK", 0x100#11, 0x300#11⟩
  | .payStore _    => ⟨"PAY.STORE", 0x200#11, 0x700#11⟩
  | .payDiscard _  => ⟨"PAY.DISCARD", 0x600#11, 0x700#11⟩
  | .payEndFrame _ => ⟨"PAY.END.FRAME", 0x200#11, 0x700#11⟩
  | .payEndBadcs _ => ⟨"PAY.END.BADCS", 0x200#11, 0x700#11⟩
  | .payEndOvf _   => ⟨"PAY.END.OVF", 0x600#11, 0x700#11⟩
  | .st3 _ _       => ⟨"ST3", 0x300#11, 0x300#11⟩

/-- DESIGN CHOICE (log entry 8): the registers beside which a bare table word is read.  The table gives rows that differ
only in their side conditions the same word; here a payload byte is never the frame's last one. -/
def tableSide (ovf : Bool) : Side := { cnt := 0#8, len := if ovf then 9#8 else 2#8, acc := 0#8 }

/-- The instruction this decoder reads from a word numbered as spec/opcode_table.json numbers it (log entry 8). -/
def decodeTableWord (nbits w : Nat) : Option Instr :=
  match decode Config.instantiation (tableSide ((w % 2 ^ nbits).testBit 10)) (w % 2 ^ nbits) with
  | .ok i    => some i
  | .error _ => none

end Sys2Proof
end

