-- ==== Sys2Proof/Machine/State.lean ====
section
/-! DEFINITION. The machine's state as plain data, and the state right after reset. -/

namespace Sys2Proof.Machine

/-- The payload buffer (R15, R24) as a list of (index, byte) pairs, indices strictly rising.  An index that is not
listed holds no value yet (R20, R23), so the form needs no second condition (log entry 2). -/
abbrev Memory := List Host.Cell

/-- The NACK causes (R49). -/
inductive Cause where
  | checksum
  | lenZero
  | lenOverflow
deriving DecidableEq, Repr

/-- The event of a step (R48, R62). -/
inductive Event where
  | none
  | ascii (b : Byte)
  | frame
  | nack (c : Cause)
deriving DecidableEq, Repr

/-- The byte-step model's state `S` (R8 to R15). -/
structure Decoder where
  st  : Phase
  som : Byte
  len : Byte
  cnt : Byte
  acc : Byte
  ovf : Bool
  buf : Memory
deriving DecidableEq, Repr

/-- The pending-event register of the cycle-level wrapper (R16): `ev_valid`, `ev_kind`, `ev_cause`, `ev_data`. -/
structure EventReg where
  valid : Bool
  kind  : BitVec 2
  cause : BitVec 2
  data  : Byte
deriving DecidableEq, Repr

/-- The input pins at one rising clock edge (R47). -/
structure Pins where
  rst     : Bool
  inValid : Bool
  inData  : Byte
  evReady : Bool
  rdAddr  : Byte
deriving DecidableEq, Repr

/-- Everything the machine holds.  `dec` and `ev` are the spec's state (R8, R16).  `params` holds the static parameters
(R5, R6), which no step writes (R18).  The last three are the model's own: `booted` says that a reset edge has occurred
since power-up (R93, log entry 5); `pins` is what the outside world drives at the coming edges, the nearest first (log entry 6);
`draw` numbers the edges, so that each takes free values of its own (log entries 3, 4 and 14). -/
structure State where
  params : Params
  dec    : Decoder
  ev     : EventReg
  booted : Bool
  pins   : List Pins
  draw   : Nat
deriving DecidableEq, Repr

/-- Why the machine stops with a fault. -/
inductive Fault where
  /-- Raised by a payload store whose index is not below LEN_MAX: R25 says the write never leaves the buffer, and
  R21 item 4 that no reachable step does this (log entry 7).  Safe: the model stops. -/
  | bufferRange (index : Nat)
  /-- Raised by a clock edge that finds `ev_valid = 1` with the reserved `ev_kind = 0b00` (R48, X5: "fault"; log
  entry 5).  No rule produces it.  Safe: the model stops. -/
  | reservedEventKind
deriving DecidableEq, Repr

/-- Why a step is refused. -/
inductive Refusal where
  /-- An instruction that has no meaning yet; raised by no arm of this model.  Safe. -/
  | notModelled (mnemonic : String)
  /-- Raised by a clock edge with `rst = 0` before the first reset edge: "no rule of this spec applies" (R93, X2:
  "refuse"; log entry 5).  Safe: the model stops. -/
  | beforeFirstReset
deriving DecidableEq, Repr

/-- The state after a reset edge, for given parameters: `st`, `ovf` and `ev_valid` as R20 gives them.  DESIGN CHOICE
(log entry 2): every register that R20 leaves unspecified holds zero here, and no buffer cell holds a value. -/
def State.resetWith (P : Params) : State where
  params := P
  dec    := { st := .idle, som := 0#8, len := 0#8, cnt := 0#8, acc := 0#8, ovf := false, buf := [] }
  ev     := { valid := false, kind := 0#2, cause := 0#2, data := 0#8 }
  booted := true
  pins   := []
  draw   := 0

/-- The machine right after reset, with the parameters of the test instantiation (log entry 1). -/
def State.reset : State := State.resetWith Config.instantiation

end Sys2Proof.Machine
end

