-- ==== Sys2Proof/Machine/Flags.lean ====
section
/-! DEFINITION. The accumulator and counter arithmetic, and the codes of the output event. -/

namespace Sys2Proof.Machine

/-- R13: fold a byte into the accumulator, `acc <- acc + b` modulo 256. -/
def Decoder.fold (d : Decoder) (b : Byte) : Decoder := { d with acc := d.acc + b }

/-- R12: one more payload byte counted, `cnt <- cnt + 1` on 8 bits. -/
def Decoder.count (d : Decoder) : Decoder := { d with cnt := d.cnt + 1#8 }

/-- `ev_kind` (R48). -/
def kindCode : Event → BitVec 2
  | .none    => 0b00#2
  | .ascii _ => 0b01#2
  | .frame   => 0b10#2
  | .nack _  => 0b11#2

/-- The code of a NACK cause (R49). -/
def causeBits : Cause → BitVec 2
  | .checksum    => 0b01#2
  | .lenZero     => 0b10#2
  | .lenOverflow => 0b11#2

/-- `ev_cause` (R49, R96): 0b00 unless the event is a NACK. -/
def causeCode : Event → BitVec 2
  | .none    => 0b00#2
  | .ascii _ => 0b00#2
  | .frame   => 0b00#2
  | .nack c  => causeBits c

/-- The event the register holds (R48, R49): none while `ev_valid = 0`.  The code pairs that R96 never loads (the
reserved kind, a NACK without a cause) are read as no event (log entry 11). -/
def EventReg.event (r : EventReg) : Event :=
  if r.valid then
    if r.kind = 0b01#2 then .ascii r.data
    else if r.kind = 0b10#2 then .frame
    else if r.kind = 0b11#2 then
      if r.cause = 0b01#2 then .nack .checksum
      else if r.cause = 0b10#2 then .nack .lenZero
      else if r.cause = 0b11#2 then .nack .lenOverflow
      else .none
    else .none
  else .none

end Sys2Proof.Machine
end

