-- ==== Sys2Proof/Machine/Operands.lean ====
section
/-! DEFINITION. What a step reads: the pins of its edge, the byte, the side conditions, the operation. -/

namespace Sys2Proof.Machine

/-- DESIGN CHOICE (log entry 6): the pins at an edge for which the outside world drives nothing. -/
def Pins.quiet : Pins := { rst := false, inValid := false, inData := 0#8, evReady := false, rdAddr := 0#8 }

/-- The pins sampled at the coming edge. -/
def State.inputPins (s : State) : Pins := s.pins.head?.getD Pins.quiet

/-- The registers the side conditions of R45 read. -/
def Decoder.side (d : Decoder) : Side := { cnt := d.cnt, len := d.len, acc := d.acc }

/-- The selection word of a step on `b` (R45). -/
def Decoder.word (d : Decoder) (b : Byte) : SelWord := packWord d.ovf d.st b

/-- The operation of a step on `b` (R45, R62). -/
def State.instrFor (s : State) (b : Byte) : Instr := select s.params s.dec.side (s.dec.word b)

/-- R95: `in_ready = (ev_valid == 0) and (rst == 0)`. -/
def State.inReady (s : State) (p : Pins) : Bool := !s.ev.valid && !p.rst

/-- R94: a step happens at the coming edge. -/
def State.handshake (s : State) : Bool :=
  !s.inputPins.rst && s.inputPins.inValid && s.inReady s.inputPins

/-- R25: the index a payload store writes, "the counter before the step's increment". -/
def Decoder.storeIndex (d : Decoder) : Nat := d.cnt.toNat

end Sys2Proof.Machine
end

