-- ==== Sys2Proof/Machine/Ops.lean ====
section
/-! DEFINITION. The operations the meanings share: the payload buffer, the event register, ending a step, rejecting a
frame, the reset edge and retiring an event. -/

namespace Sys2Proof.Machine

/-! The payload buffer (20_memory.md). -/

/-- `MemRead(i, 1)`: the byte of cell `i`, or no value where nothing has written it since reset (R20, R23). -/
def Memory.read : Memory → Nat → Option Byte
  | [], _          => none
  | (a, x) :: m, i => if a = i then some x else Memory.read m i

/-- `MemWrite(i, 1, v)`: cell `i` takes `v` and no other cell changes (R25, R30). -/
def Memory.write : Memory → Nat → Byte → Memory
  | [], i, v          => [(i, v)]
  | (a, x) :: m, i, v =>
    if i < a then (i, v) :: (a, x) :: m else if i = a then (i, v) :: m else (a, x) :: Memory.write m i v

/-- Every index listed is above `lo`, and the indices rise strictly. -/
def Memory.risesAbove : Nat → Memory → Bool
  | _, []           => true
  | lo, (a, _) :: m => decide (lo < a) && Memory.risesAbove a m

/-- The canonical form: indices strictly rising (log entry 2). -/
def Memory.wf : Memory → Bool
  | []          => true
  | (a, _) :: m => Memory.risesAbove a m

/-- Every listed index is below `n`. -/
def Memory.below (n : Nat) (m : Memory) : Bool := m.all fun c => decide (c.1 < n)

/-- The bytes of cells 0 to `n - 1` in index order (R27), where every one of them holds a value. -/
def Memory.firstBytes (m : Memory) : Nat → Option (List Byte)
  | 0     => some []
  | n + 1 =>
    match Memory.firstBytes m n, Memory.read m n with
    | some xs, some x => some (xs ++ [x])
    | _, _            => none

/-- `buf[cnt] <- b` (R25).  A cell at or above LEN_MAX does not exist (R24): the store faults. -/
def State.storePayload (s : State) (b : Byte) : Except Fault Decoder :=
  if s.dec.storeIndex < s.params.lenMax.toNat then
    .ok { s.dec with buf := Memory.write s.dec.buf s.dec.storeIndex b }
  else .error (.bufferRange s.dec.storeIndex)

/-! The event register and the end of a step. -/

/-- R96, the third branch: load the event of a step on byte `b`.  A step without an event leaves the register. -/
def EventReg.load (r : EventReg) (b : Byte) (e : Event) : EventReg :=
  match e with
  | .none => r
  | e     => { valid := true, kind := kindCode e, cause := causeCode e, data := b }

/-- The end of a step on byte `b`: the new decoder state and the event, together (R62, R97). -/
def State.commit (s : State) (b : Byte) (d : Decoder) (e : Event) : Host.Outcome State Fault Refusal :=
  .next { s with dec := d, ev := s.ev.load b e }

/-- R83, "trap entry": every NACK step sets `st <- IDLE`, saves nothing else, and emits the NACK. -/
def State.rejectFrame (s : State) (b : Byte) (d : Decoder) (c : Cause) : Host.Outcome State Fault Refusal :=
  s.commit b { d with st := .idle } (.nack c)

/-- R63: record the start marker, clear the accumulator, await LENGTH. -/
def State.beginFrame (s : State) (b : Byte) : Host.Outcome State Fault Refusal :=
  s.commit b { s.dec with som := b, acc := 0x00#8, st := .waitLen } .none

/-- R65 to R67: `len <- b`, `cnt <- 0`, `acc <- acc + b`, and `ovf`. -/
def Decoder.takeLength (d : Decoder) (b : Byte) (ovf : Bool) : Decoder :=
  { d.fold b with len := b, cnt := 0x00#8, ovf := ovf }

/-- R68 to R72: `acc <- acc + b`, `cnt <- cnt + 1`. -/
def Decoder.takePayload (d : Decoder) (b : Byte) : Decoder := (d.fold b).count

/-! Edges at which no step happens. -/

/-- Every edge uses up its pins and one draw number (log entries 3, 4 and 6). -/
def State.tick (s : State) : State := { s with pins := s.pins.tail, draw := s.draw + 1 }

/-- R84, R96, the second branch: the pending event is retired.  This is all there is after a NACK: "There is no return
operation". -/
def State.retire (s : State) : State := { s with ev := { s.ev with valid := false } }

/-- R90, R20: the reset edge.  Every register R20 leaves unspecified takes a free value, and no buffer cell holds a
value (log entry 3). -/
def State.resetEdge (s : State) : State :=
  { s with
    booted := true
    dec :=
      { st := .idle, ovf := false, buf := []
        som := Config.resetSom s.draw, len := Config.resetLen s.draw
        cnt := Config.resetCnt s.draw, acc := Config.resetAcc s.draw }
    ev :=
      { valid := false, kind := Config.resetEvKind s.draw
        cause := Config.resetEvCause s.draw, data := Config.resetEvData s.draw } }

end Sys2Proof.Machine
end

