-- ==== Sys2Proof/Machine/Idle.lean ====
section
/-! DEFINITION. The IDLE operations: IDLE.SOM and IDLE.ASCII. -/

namespace Sys2Proof.Machine

/-- IDLE.SOM (R63). -/
def execIdleSom (_ovf : Bool) (b : Byte) (s : State) : Host.Outcome State Fault Refusal := s.beginFrame b

/-- IDLE.ASCII (R64): no register written. -/
def execIdleAscii (_ovf : Bool) (b : Byte) (s : State) : Host.Outcome State Fault Refusal :=
  s.commit b s.dec (.ascii b)

end Sys2Proof.Machine
end

