-- ==== Sys2Proof/Machine/Length.lean ====
section
/-! DEFINITION. The WAIT_LEN operations: LEN.ZERO, LEN.OVF and LEN.OK. -/

namespace Sys2Proof.Machine

/-- LEN.ZERO (R65, R80): the byte is 0x00. -/
def execLenZero (_ovf : Bool) (s : State) : Host.Outcome State Fault Refusal :=
  s.rejectFrame 0x00#8 (s.dec.takeLength 0x00#8 false) .lenZero

/-- LEN.OVF (R66): discard mode. -/
def execLenOvf (_ovf : Bool) (b : Byte) (s : State) : Host.Outcome State Fault Refusal :=
  s.commit b { s.dec.takeLength b true with st := .waitPayload } .none

/-- LEN.OK (R67). -/
def execLenOk (_ovf : Bool) (b : Byte) (s : State) : Host.Outcome State Fault Refusal :=
  s.commit b { s.dec.takeLength b false with st := .waitPayload } .none

end Sys2Proof.Machine
end

