-- ==== Sys2Proof/Machine/Payload.lean ====
section
/-! DEFINITION. The WAIT_PAYLOAD operations: PAY.STORE, PAY.DISCARD, PAY.END.FRAME, PAY.END.BADCS and PAY.END.OVF. -/

namespace Sys2Proof.Machine

/-- PAY.STORE (R68). -/
def execPayStore (b : Byte) (s : State) : Host.Outcome State Fault Refusal :=
  match s.storePayload b with
  | .ok d    => s.commit b (d.takePayload b) .none
  | .error f => .fault f

/-- PAY.DISCARD (R69): counted and folded, not stored. -/
def execPayDiscard (b : Byte) (s : State) : Host.Outcome State Fault Refusal :=
  s.commit b (s.dec.takePayload b) .none

/-- PAY.END.FRAME (R70). -/
def execPayEndFrame (b : Byte) (s : State) : Host.Outcome State Fault Refusal :=
  match s.storePayload b with
  | .ok d    => s.commit b { d.takePayload b with st := .idle } .frame
  | .error f => .fault f

/-- PAY.END.BADCS (R71, R79): "stored as in §4.1, before the check". -/
def execPayEndBadcs (b : Byte) (s : State) : Host.Outcome State Fault Refusal :=
  match s.storePayload b with
  | .ok d    => s.rejectFrame b (d.takePayload b) .checksum
  | .error f => .fault f

/-- PAY.END.OVF (R72, R81): `ovf` stays 1, and the length error wins over the checksum (R82). -/
def execPayEndOvf (b : Byte) (s : State) : Host.Outcome State Fault Refusal :=
  s.rejectFrame b (s.dec.takePayload b) .lenOverflow

end Sys2Proof.Machine
end

