-- ==== Sys2Proof/Machine/Unused.lean ====
section
/-! DEFINITION. The step in the unused state encoding 0b11: ST3. -/

namespace Sys2Proof.Machine

/-- ST3 (R73): as IDLE.SOM on START_MARKER, else back to IDLE with the byte forwarded. -/
def execSt3 (_ovf : Bool) (b : Byte) (s : State) : Host.Outcome State Fault Refusal :=
  if b = s.params.startMarker then s.beginFrame b
  else s.commit b { s.dec with st := .idle } (.ascii b)

end Sys2Proof.Machine
end

