-- ==== Sys2Proof/Machine/Dispatch.lean ====
section
/-! DEFINITION. The meaning of every instruction, one arm per row of the opcode table.  Which
operation a step runs is `select` (Decode.lean); a meaning is its operation's pseudocode and tests none of the conditions
that select it (log entry 9). -/

namespace Sys2Proof.Machine

def exec (i : Instr) (s : State) : Host.Outcome State Fault Refusal :=
  match i with
  | .idleSom ovf b => Sys2Proof.Machine.execIdleSom ovf b s
  | .idleAscii ovf b => Sys2Proof.Machine.execIdleAscii ovf b s
  | .lenZero ovf => Sys2Proof.Machine.execLenZero ovf s
  | .lenOvf ovf b => Sys2Proof.Machine.execLenOvf ovf b s
  | .lenOk ovf b => Sys2Proof.Machine.execLenOk ovf b s
  | .payStore b => Sys2Proof.Machine.execPayStore b s
  | .payDiscard b => Sys2Proof.Machine.execPayDiscard b s
  | .payEndFrame b => Sys2Proof.Machine.execPayEndFrame b s
  | .payEndBadcs b => Sys2Proof.Machine.execPayEndBadcs b s
  | .payEndOvf b => Sys2Proof.Machine.execPayEndOvf b s
  | .st3 ovf b => Sys2Proof.Machine.execSt3 ovf b s

end Sys2Proof.Machine
end

