-- ==== Sys2Proof/Machine/Edge.lean ====
section
/-! DEFINITION. One rising clock edge of the cycle-level wrapper (R89 to R97), and placing a selection word. -/

namespace Sys2Proof.Machine

/-- One rising edge with `rst = 0` after boot: hold or retire the pending event, take the offered byte, or neither, in
the order of precedence of R96. -/
def State.runEdge (s : State) : Host.Outcome State Fault Refusal :=
  if s.ev.valid then
    if s.ev.kind = 0b00#2 then .fault .reservedEventKind
    else if s.inputPins.evReady then .next s.tick.retire
    else .next s.tick
  else if s.handshake then exec (s.instrFor s.inputPins.inData) s.tick
  else .next s.tick

/-- One rising edge of `clk` (R89): a reset edge (R90); before the first one, no rule (R93, X2); else `runEdge`. -/
def State.clockEdge (s : State) : Host.Outcome State Fault Refusal :=
  if s.inputPins.rst then .next s.tick.resetEdge
  else if s.booted then s.runEdge
  else .refused .beforeFirstReset

/-- The pins that offer byte `b` at one edge. -/
def Pins.offer (b : Byte) : Pins := { Pins.quiet with inValid := true, inData := b }

/-- The pins that retire a pending event at one edge. -/
def Pins.accept : Pins := { Pins.quiet with evReady := true }

/-- Set what the selection of word `w` takes (R45, log entry 8): `ovf` and `st`, the byte on the pins of the next edge, a
channel with no event pending, and the context in which `decodeTableWord` reads a word: its parameters and, in
WAIT_PAYLOAD, its counter and length. -/
def State.placeWord (s : State) (w : SelWord) : State :=
  { s with
    params := Config.instantiation
    booted := true
    ev := { s.ev with valid := false }
    pins := Pins.offer (wordByte w) :: s.pins
    dec :=
      match wordPhase w with
      | .waitPayload =>
        { s.dec with
          ovf := wordOvf w, st := .waitPayload
          cnt := (tableSide (wordOvf w)).cnt, len := (tableSide (wordOvf w)).len }
      | p => { s.dec with ovf := wordOvf w, st := p } }

end Sys2Proof.Machine
end

