-- ==== Sys2Proof/Machine/Step.lean ====
section
/-! DEFINITION. The machine's step: one rising clock edge. -/

namespace Sys2Proof.Machine

/-- One rising edge of `clk` (R89 to R97). -/
def step (s : State) : Host.Outcome State Fault Refusal := s.clockEdge

/-- The state whose next step runs the instruction that `decodeTableWord nbits w` reads (log entry 8). -/
def State.withFetchWord (s : State) (nbits w : Nat) : State := s.placeWord (BitVec.ofNat 11 (w % 2 ^ nbits))

end Sys2Proof.Machine
end

