-- ==== Sys2Proof/Machine/Ports.lean ====
section
/-! DEFINITION. The output pins (R47): combinational from the registers and the pins of the same cycle (R97). -/

namespace Sys2Proof.Machine

/-- The output pins of R47. -/
structure Outputs where
  inReady  : Bool
  evValid  : Bool
  evKind   : BitVec 2
  evCause  : BitVec 2
  evData   : Byte
  frameSom : Byte
  frameLen : Byte
  rdData   : Byte
deriving DecidableEq, Repr

/-- An event is presented: a reset edge has occurred and `ev_valid = 1`.  DESIGN CHOICE (log entry 14): before the first
reset edge no rule applies (R93, X2), and no output shows a register. -/
def State.eventWindow (s : State) : Bool := s.booted && s.ev.valid

/-- The window of R26 and R50: `ev_valid = 1` and `ev_kind = FRAME`. -/
def State.frameWindow (s : State) : Bool := s.eventWindow && decide (s.ev.kind = 0b10#2)

/-- R26: `rd_data = buf[rd_addr]` in the window and below `len`; anywhere else a free value (D21, log entry 4). -/
def State.rdData (s : State) (a : Byte) : Byte :=
  if s.frameWindow && decide (a.toNat < s.dec.len.toNat) then
    (Memory.read s.dec.buf a.toNat).getD (Config.openRdData s.draw a)
  else Config.openRdData s.draw a

/-- R50: `frame_som` shows `som` in the window (D21, log entry 4). -/
def State.frameSom (s : State) : Byte := if s.frameWindow then s.dec.som else Config.openFrameSom s.draw

/-- R50: `frame_len` shows `len` in the window (D21, log entry 4). -/
def State.frameLen (s : State) : Byte := if s.frameWindow then s.dec.len else Config.openFrameLen s.draw

/-- Every output pin while the inputs are `p` (R47, R95).  `ev_kind`, `ev_cause` and `ev_data` are any value while
`ev_valid = 0` (X4, D21, log entry 4).  DESIGN CHOICE (log entry 14): before the first reset edge every output pin shows a
free value; the spec says no more than that no rule applies (R93, X2). -/
def State.outputs (s : State) (p : Pins) : Outputs where
  inReady  := if s.booted then s.inReady p else Config.openInReady s.draw
  evValid  := if s.booted then s.ev.valid else Config.openEvValid s.draw
  evKind   := if s.eventWindow then s.ev.kind else Config.openEvKind s.draw
  evCause  := if s.eventWindow then s.ev.cause else Config.openEvCause s.draw
  evData   := if s.eventWindow then s.ev.data else Config.openEvData s.draw
  frameSom := s.frameSom
  frameLen := s.frameLen
  rdData   := s.rdData p.rdAddr

end Sys2Proof.Machine
end

