-- ==== Sys2Proof/Machine/Stream.lean ====
section
/-! DEFINITION. The byte-step level (R62): STEP, folding it over a stream, and what the wrapper takes and emits. -/

namespace Sys2Proof.Machine

/-- A machine with decoder state `d` and nothing pending, beside which one step is read. -/
def State.atDecoder (P : Params) (d : Decoder) : State :=
  { State.resetWith P with dec := d }

/-- `STEP : Params -> S -> u8 -> S x Event` (R62).  The outcome is a fault only where a store would leave the buffer, which
R21 rules out. -/
def byteStep (P : Params) (d : Decoder) (b : Byte) : Host.Outcome (Decoder × Event) Fault Refusal :=
  match exec ((State.atDecoder P d).instrFor b) (State.atDecoder P d) with
  | .next t    => .next (t.dec, t.ev.event)
  | .fault f   => .fault f
  | .refused r => .refused r

/-- "A stream of bytes is processed by folding STEP over it in arrival order" (R62).  The list holds the event of each
byte, `Event.none` where it has none. -/
def feed (P : Params) : Decoder → List Byte → Host.Outcome (Decoder × List Event) Fault Refusal
  | d, []      => .next (d, [])
  | d, b :: bs =>
    match byteStep P d b with
    | .next (d', e) =>
      match feed P d' bs with
      | .next (d'', es) => .next (d'', e :: es)
      | .fault f        => .fault f
      | .refused r      => .refused r
    | .fault f   => .fault f
    | .refused r => .refused r

/-- The operations a stream performs, in order. -/
def performed (P : Params) : Decoder → List Byte → List Instr
  | _, []      => []
  | d, b :: bs =>
    (State.atDecoder P d).instrFor b ::
      match byteStep P d b with
      | .next (d', _) => performed P d' bs
      | .fault _      => []
      | .refused _    => []

/-- `n` clock edges. -/
def edges : Nat → State → Host.Outcome State Fault Refusal
  | 0, s     => .next s
  | n + 1, s =>
    match step s with
    | .next t    => edges n t
    | .fault f   => .fault f
    | .refused r => .refused r

/-- The bytes taken in the next `n` edges, in handshake order (R94). -/
def takenBytes : Nat → State → List Byte
  | 0, _     => []
  | n + 1, s =>
    match step s with
    | .next t    => if s.handshake then s.inputPins.inData :: takenBytes n t else takenBytes n t
    | .fault _   => []
    | .refused _ => []

/-- The event of each step of the next `n` edges (R96), `Event.none` for a step that emits none. -/
def stepEvents : Nat → State → List Event
  | 0, _     => []
  | n + 1, s =>
    match step s with
    | .next t    => if s.handshake then t.ev.event :: stepEvents n t else stepEvents n t
    | .fault _   => []
    | .refused _ => []

/-- The pins that offer each byte of a stream at one edge and retire its event, if any, at the next: a producer that
keeps R99 and collaborators that keep R104. -/
def servedPins : List Byte → List Pins
  | []      => []
  | b :: bs => Pins.offer b :: Pins.accept :: servedPins bs

end Sys2Proof.Machine
end

