-- ==== Sys2Proof/Machine/Checksum.lean ====
section
/-! DEFINITION. The checksum functions over byte sequences (40_checksum.md). -/

namespace Sys2Proof.Machine

/-- CS_SUM (R54): fold the bytes from the left, adding modulo 256. -/
def csSum (x : List Byte) : Byte := x.foldl (fun a y => a + y) 0#8

/-- CS_GEN (R55): the two's-complement negation of the sum; 90_conflicts.md C1 settles the sign. -/
def csGen (x : List Byte) : Byte := 0#8 - csSum x

/-- CS_VALID (R56): the sum is zero. -/
def csValid (x : List Byte) : Bool := decide (csSum x = 0#8)

/-- The source's subtractive accumulation `SUB` (R57). -/
def csSub (x : List Byte) : Byte := x.foldl (fun a y => a - y) 0#8

end Sys2Proof.Machine
end

