-- ==== Sys2Proof/Machine/Wire.lean ====
section
/-! DEFINITION. Wire frames (R35 to R44): what a sender builds with CS_GEN.  The decoder checks none of the payload
layouts; they say which byte streams the collaborators send. -/

namespace Sys2Proof.Machine

/-- The LENGTH of a frame whose bytes from COMMAND to the last before CHECKSUM are `body` (R36): it counts CHECKSUM. -/
def wireLength (body : List Byte) : Byte := BitVec.ofNat 8 (body.length + 1)

/-- `[START_MARKER][LENGTH] body [CHECKSUM]` (R35, R37).  A body of more than 254 bytes has no frame: its length does not
fit the LENGTH byte (log entry 12). -/
def wireFrame (P : Params) (body : List Byte) : List Byte :=
  P.startMarker :: wireLength body :: (body ++ [csGen (wireLength body :: body)])

/-- R44: ACK. -/
def ackFrame (P : Params) (C : CommandCodes) : List Byte := wireFrame P [C.ack]

/-- R44: the frame the responder owes for a NACK event (R83), whatever the cause (R49). -/
def nackFrame (P : Params) (C : CommandCodes) : List Byte := wireFrame P [C.nack]

/-- R40: the READ-VALUE request. -/
def readRequest (P : Params) (C : CommandCodes) (code : Byte) : List Byte := wireFrame P [C.read, code]

/-- R40: the READ-VALUE response; `data` is empty if the code is unknown. -/
def readResponse (P : Params) (C : CommandCodes) (code : Byte) (data : List Byte) : List Byte :=
  wireFrame P (C.read :: code :: data)

/-- R41: the WRITE-VALUE request. -/
def writeRequest (P : Params) (C : CommandCodes) (code : Byte) (data : List Byte) : List Byte :=
  wireFrame P (C.write :: code :: data)

/-- R41: the WRITE-VALUE response where the code is registered; the response on a miss is not given (N15). -/
def writeResponse (P : Params) (C : CommandCodes) (code : Byte) : List Byte := wireFrame P [C.write, code]

end Sys2Proof.Machine
end

