-- ==== Sys2Proof/Safety.lean ====
section
/-! DEFINITION. What the claims call a legal state: R21's invariants, and what a pending event says. -/

namespace Sys2Proof.Machine

/-- The sum of LENGTH and the first `n` buffer bytes, where all of those hold a value. -/
def Decoder.frameSum (d : Decoder) (n : Nat) : Option Byte :=
  (Memory.firstBytes d.buf n).map fun ps => csSum (d.len :: ps)

/-- R21 for the decoder's own registers.  Item 3 is stated for stored bytes; for the bytes of an oversized frame, which
no register keeps, a statement over streams says it. -/
structure Decoder.Inv (P : Params) (d : Decoder) : Prop where
  /-- R21 item 1 -/
  phase : d.st ≠ .unused
  /-- R21 item 2 -/
  length : d.st = .waitLen → d.acc = 0#8 ∧ d.som = P.startMarker
  /-- R21 item 3, and R10 -/
  payload : d.st = .waitPayload → 1 ≤ d.len.toNat ∧ d.cnt.toNat < d.len.toNat ∧ d.som = P.startMarker
  /-- R21 items 3 and 4 -/
  stored : d.st = .waitPayload → d.ovf = false →
    d.len.toNat ≤ P.lenMax.toNat ∧ d.frameSum d.cnt.toNat = some d.acc
  /-- R21 item 5 -/
  discarded : d.st = .waitPayload → d.ovf = true → P.lenMax.toNat < d.len.toNat
  /-- the buffer keeps its canonical form -/
  canonical : Memory.wf d.buf = true
  /-- the buffer has LEN_MAX cells (R24) -/
  within : Memory.below P.lenMax.toNat d.buf = true

/-- What a pending event says about the decoder: R48, R49, R79 to R81, R83, R102. -/
structure EventInv (P : Params) (d : Decoder) (r : EventReg) : Prop where
  /-- every event ends its step in IDLE -/
  idle : r.valid = true → d.st = .idle
  /-- R48: the reserved kind is never pending -/
  kind : r.valid = true → r.kind ≠ 0b00#2
  /-- R49: no cause unless NACK, and a NACK has one -/
  cause : r.valid = true → (r.cause = 0b00#2 ↔ r.kind ≠ 0b11#2)
  /-- R102: the console never receives START_MARKER -/
  ascii : r.valid = true → r.kind = 0b01#2 → r.data ≠ P.startMarker
  /-- R27, R70: a pending FRAME is a whole frame with a valid checksum, its last byte on `ev_data` -/
  frame : r.valid = true → r.kind = 0b10#2 →
    1 ≤ d.len.toNat ∧ d.len.toNat ≤ P.lenMax.toNat ∧ d.cnt = d.len ∧ d.som = P.startMarker ∧
    d.frameSum d.len.toNat = some 0#8 ∧ Memory.read d.buf (d.len.toNat - 1) = some r.data
  /-- R79 -/
  checksum : r.valid = true → r.kind = 0b11#2 → r.cause = 0b01#2 →
    1 ≤ d.len.toNat ∧ d.len.toNat ≤ P.lenMax.toNat ∧ d.cnt = d.len ∧ d.acc ≠ 0#8 ∧
    d.frameSum d.len.toNat = some d.acc ∧ Memory.read d.buf (d.len.toNat - 1) = some r.data
  /-- R80 -/
  lenZero : r.valid = true → r.kind = 0b11#2 → r.cause = 0b10#2 → d.len = 0#8 ∧ r.data = 0#8
  /-- R81 -/
  lenOverflow : r.valid = true → r.kind = 0b11#2 → r.cause = 0b11#2 → P.lenMax.toNat < d.len.toNat ∧ d.cnt = d.len

/-- The legal states: after a reset edge, with legal parameters, R21's invariants and an explained event. -/
structure State.Inv (s : State) : Prop where
  booted : s.booted = true
  params : s.params.legal = true
  dec    : s.dec.Inv s.params
  event  : EventInv s.params s.dec s.ev

/-- A step that completes: neither a fault nor a refusal. -/
def Completes {α : Type} (o : Host.Outcome α Fault Refusal) : Prop := ∃ t, o = .next t

end Sys2Proof.Machine
end

