-- ==== Sys2Proof/Certificates/Slice0/Obligations.lean ====
section
/-! DEFINITION. The statements about the model, for the provers. -/

open Sys2Proof Sys2Proof.Machine

/-! ## Operation selection -/

/-- 95_test_vectors.md section 3, the W column, with each word written out as {ovf, st, b}: what they select under
START_MARKER = 0x02, LEN_MAX = 8 and the side conditions of the vector. -/
def Obligations.SelectionWordsFromTheVectors : Prop :=
  select ⟨0x02#8, 0x08#8⟩ ⟨0, 0, 0⟩ 0b0_00_00000010#11 = .idleSom false 0x02#8 ∧
  select ⟨0x02#8, 0x08#8⟩ ⟨9, 9, 0⟩ 0b1_00_01000110#11 = .idleAscii true 0x46#8 ∧
  select ⟨0x02#8, 0x08#8⟩ ⟨0, 0, 0⟩ 0b0_01_00000000#11 = .lenZero false ∧
  select ⟨0x02#8, 0x08#8⟩ ⟨0, 0, 0⟩ 0b0_01_00001001#11 = .lenOvf false 0x09#8 ∧
  select ⟨0x02#8, 0x08#8⟩ ⟨0, 0, 0⟩ 0b0_01_00001000#11 = .lenOk false 0x08#8 ∧
  select ⟨0x02#8, 0x08#8⟩ ⟨0, 3, 3⟩ 0b0_10_00000010#11 = .payStore 0x02#8 ∧
  select ⟨0x02#8, 0x08#8⟩ ⟨2, 9, 0x0A#8⟩ 0b1_10_00000010#11 = .payDiscard 0x02#8 ∧
  select ⟨0x02#8, 0x08#8⟩ ⟨2, 3, 4⟩ 0b0_10_11111100#11 = .payEndFrame 0xFC#8 ∧
  select ⟨0x02#8, 0x08#8⟩ ⟨2, 3, 4⟩ 0b0_10_11111101#11 = .payEndBadcs 0xFD#8 ∧
  select ⟨0x02#8, 0x08#8⟩ ⟨8, 9, 0x25#8⟩ 0b1_10_11011011#11 = .payEndOvf 0xDB#8 ∧
  select ⟨0x02#8, 0x08#8⟩ ⟨0, 0, 0⟩ 0b1_11_01000110#11 = .st3 true 0x46#8

/-- Decoding the word of an instruction gives the instruction back, for every instruction a block with these parameters
can select beside these registers; a number wider than a selection word is rejected (the model's
choice, log entry 10). -/
def Obligations.DecodeOfEncodeIsTheInstruction : Prop :=
  (∀ (P : Params) (c : Side) (i : Instr), i.wellFormed P = true → i.sideOk c = true →
    decode P c (encode i).toNat = .ok i) ∧
  (∀ (P : Params) (c : Side) (w : Nat), 2048 ≤ w → decode P c w = .error .wideWord)

/-- R45: the rows are mutually exclusive and cover every word: of all instructions exactly one has the word `w` and meets
its row's conditions, and it is the one the decoder selects.  `cnt + 1` is computed without wrap, and LEN.OVF never fires
with LEN_MAX = 255. -/
def Obligations.SelectionIsTotalAndDeterministic : Prop :=
  (∀ (P : Params) (c : Side) (w : SelWord) (i : Instr),
    (encode i = w ∧ i.wellFormed P = true ∧ i.sideOk c = true) ↔ i = select P c w) ∧
  (∀ c : Side, c.last = true ↔ c.cnt.toNat + 1 = c.len.toNat) ∧
  (∀ (m b : Byte) (ovf : Bool) (c : Side) (w : SelWord), select { startMarker := m, lenMax := 255#8 } c w ≠ .lenOvf ovf b)

/-- Every selection word carries the bits that the row of the instruction it selects fixes in spec/opcode_table.json. -/
def Obligations.SelectedRowMatchesItsWord : Prop :=
  ∀ (P : Params) (c : Side) (w : SelWord),
    w &&& (tableRow (select P c w)).mask = (tableRow (select P c w)).pattern

/-! ## The clock edge -/

/-- R94: a step on `in_data` happens exactly when `rst = 0`, `in_valid = 1` and `in_ready = 1`; it is the operation that
decoding selects, run after the edge's pins are used up; at every other edge but a reset edge the decoder state is
unchanged. -/
def Obligations.EdgeRunsTheDecodedOperation : Prop :=
  (∀ (s : State) (i : Instr), s.booted = true → s.inputPins.rst = false → s.inputPins.inValid = true →
    s.inReady s.inputPins = true →
    decode s.params s.dec.side (packWord s.dec.ovf s.dec.st s.inputPins.inData).toNat = .ok i →
    step s = exec i s.tick) ∧
  (∀ s t : State, s.inputPins.rst = false →
    (s.inputPins.inValid = false ∨ s.inReady s.inputPins = false) → step s = .next t → t.dec = s.dec)

/-- R95: `in_ready`, as the handshake reads it, is `ev_valid == 0` and `rst == 0`, and so is the pin once a reset edge has
occurred (before that no rule applies, R93). -/
def Obligations.InReadyIsChannelEmptyAndNoReset : Prop :=
  ∀ (s : State) (p : Pins),
    (s.inReady p = true ↔ s.ev.valid = false ∧ p.rst = false) ∧
    (s.booted = true → (s.outputs p).inReady = s.inReady p)

/-- R47 to R50, R26: what the output pins show once a reset edge has occurred: the event register, its codes and its byte
while an event is pending, and `som`, `len` and the addressed cell while that event is FRAME.  Nothing is said of an output
outside its window. -/
def Obligations.OutputPinsShowTheirRegisters : Prop :=
  ∀ (s : State) (p : Pins), s.booted = true →
    (s.outputs p).inReady = s.inReady p ∧ (s.outputs p).evValid = s.ev.valid ∧
    (s.outputs p).frameSom = s.frameSom ∧ (s.outputs p).frameLen = s.frameLen ∧
    (s.outputs p).rdData = s.rdData p.rdAddr ∧
    (s.ev.valid = true →
      (s.outputs p).evKind = s.ev.kind ∧ (s.outputs p).evCause = s.ev.cause ∧ (s.outputs p).evData = s.ev.data) ∧
    (s.ev.valid = true → s.ev.kind = 0b10#2 →
      (s.outputs p).frameSom = s.dec.som ∧ (s.outputs p).frameLen = s.dec.len ∧
      ∀ x : Byte, p.rdAddr.toNat < s.dec.len.toNat → Memory.read s.dec.buf p.rdAddr.toNat = some x →
        (s.outputs p).rdData = x)

/-- R96: the branches of the event register in their order of precedence, with the step of R62 as `byteStep`.  (With the
reserved kind pending the edge stops instead: `EdgeStopsOnlyByName`.) -/
def Obligations.EventRegisterFollowsItsPrecedence : Prop :=
  ∀ s : State,
    (s.inputPins.rst = true → ∃ t, step s = .next t ∧ t.ev.valid = false) ∧
    (s.inputPins.rst = false → s.booted = true →
      (s.ev.valid = true → s.ev.kind ≠ 0b00#2 → s.inputPins.evReady = true →
        step s = .next { s.tick with ev := { s.ev with valid := false } }) ∧
      (s.ev.valid = true → s.ev.kind ≠ 0b00#2 → s.inputPins.evReady = false → step s = .next s.tick) ∧
      (s.ev.valid = false → s.inputPins.inValid = true →
        ∀ (d : Decoder) (e : Event), byteStep s.params s.dec s.inputPins.inData = .next (d, e) →
          step s = .next { s.tick with
            dec := d
            ev := if e = .none then s.ev
                  else { valid := true, kind := kindCode e, cause := causeCode e, data := s.inputPins.inData } }) ∧
      (s.ev.valid = false → s.inputPins.inValid = false → step s = .next s.tick))

/-- R90: at a reset edge `st`, `ovf` and `ev_valid` take the values of R20, whatever the state and the other pins; no step
happens (no byte is taken, the parameters stay).  Nothing is said of the registers R20 leaves unspecified. -/
def Obligations.ResetEdgeGivesTheResetState : Prop :=
  ∀ s : State, s.inputPins.rst = true →
    ∃ t, step s = .next t ∧ t.dec.st = .idle ∧ t.dec.ovf = false ∧ t.ev.valid = false ∧
      t.booted = true ∧ t.params = s.params ∧ s.handshake = false

/-- R91: a reset edge in WAIT_LEN or WAIT_PAYLOAD drops the frame with no event; any other way back to IDLE is a byte that
ends the frame: LENGTH zero, or the LENGTH-th payload byte. -/
def Obligations.OnlyResetAbandonsAFrame : Prop :=
  (∀ s : State, (s.dec.st = .waitLen ∨ s.dec.st = .waitPayload) → s.inputPins.rst = true →
    ∃ t, step s = .next t ∧ t.dec.st = .idle ∧ t.ev.valid = false) ∧
  (∀ s t : State, (s.dec.st = .waitLen ∨ s.dec.st = .waitPayload) → step s = .next t → t.dec.st = .idle →
    s.inputPins.rst = true ∨
    (s.handshake = true ∧
      ((s.dec.st = .waitLen ∧ s.inputPins.inData = 0#8) ∨
       (s.dec.st = .waitPayload ∧ s.dec.cnt.toNat + 1 = s.dec.len.toNat))))

/-- The model's stops (X2, X5 and log entry 7): an edge is refused exactly before the first reset edge, and faults only on
the reserved event kind or on a store whose index is not below LEN_MAX. -/
def Obligations.EdgeStopsOnlyByName : Prop :=
  (∀ (s : State) (r : Refusal), step s = .refused r ↔
    r = .beforeFirstReset ∧ s.booted = false ∧ s.inputPins.rst = false) ∧
  (∀ (s : State) (f : Fault), step s = .fault f ↔
    s.inputPins.rst = false ∧ s.booted = true ∧
    ((f = .reservedEventKind ∧ s.ev.valid = true ∧ s.ev.kind = 0b00#2) ∨
     (f = .bufferRange s.dec.storeIndex ∧ s.handshake = true ∧ s.dec.st = .waitPayload ∧ s.dec.ovf = false ∧
       s.params.lenMax.toNat ≤ s.dec.storeIndex)))

/-! ## The operations, one by one -/

/-- R63 IDLE.SOM. -/
def Obligations.IdleSomBeginsAFrame : Prop :=
  ∀ (s : State) (ovf : Bool) (b : Byte),
    (s.dec.st = .idle → b = s.params.startMarker → s.instrFor b = .idleSom s.dec.ovf b) ∧
    exec (.idleSom ovf b) s = .next { s with dec := { s.dec with som := b, acc := 0x00#8, st := .waitLen } }

/-- R64 IDLE.ASCII. -/
def Obligations.IdleAsciiForwardsTheByte : Prop :=
  ∀ (s : State) (ovf : Bool) (b : Byte),
    (s.dec.st = .idle → b ≠ s.params.startMarker → s.instrFor b = .idleAscii s.dec.ovf b) ∧
    exec (.idleAscii ovf b) s = .next { s with ev := { valid := true, kind := 0b01#2, cause := 0b00#2, data := b } }

/-- R65 LEN.ZERO: `acc <- acc + b` with b = 0x00 leaves `acc`. -/
def Obligations.LenZeroRejectsTheFrame : Prop :=
  ∀ (s : State) (ovf : Bool),
    (s.dec.st = .waitLen → s.instrFor 0x00#8 = .lenZero s.dec.ovf) ∧
    exec (.lenZero ovf) s = .next { s with
      dec := { s.dec with len := 0x00#8, cnt := 0x00#8, ovf := false, st := .idle }
      ev := { valid := true, kind := 0b11#2, cause := 0b10#2, data := 0x00#8 } }

/-- R66 LEN.OVF. -/
def Obligations.LenOvfEntersDiscardMode : Prop :=
  ∀ (s : State) (ovf : Bool) (b : Byte),
    (s.dec.st = .waitLen → s.params.lenMax.toNat < b.toNat → s.instrFor b = .lenOvf s.dec.ovf b) ∧
    exec (.lenOvf ovf b) s = .next { s with
      dec := { s.dec with len := b, cnt := 0x00#8, acc := s.dec.acc + b, ovf := true, st := .waitPayload } }

/-- R67 LEN.OK. -/
def Obligations.LenOkAwaitsThePayload : Prop :=
  ∀ (s : State) (ovf : Bool) (b : Byte),
    (s.dec.st = .waitLen → 1 ≤ b.toNat → b.toNat ≤ s.params.lenMax.toNat → s.instrFor b = .lenOk s.dec.ovf b) ∧
    exec (.lenOk ovf b) s = .next { s with
      dec := { s.dec with len := b, cnt := 0x00#8, acc := s.dec.acc + b, ovf := false, st := .waitPayload } }

/-- R68 PAY.STORE, for every index below LEN_MAX. -/
def Obligations.PayStoreStoresFoldsAndCounts : Prop :=
  ∀ (s : State) (b : Byte),
    (s.dec.st = .waitPayload → s.dec.ovf = false → s.dec.cnt.toNat + 1 ≠ s.dec.len.toNat →
      s.instrFor b = .payStore b) ∧
    (s.dec.cnt.toNat < s.params.lenMax.toNat →
      ∃ m : Memory,
        exec (.payStore b) s = .next { s with
          dec := { s.dec with buf := m, acc := s.dec.acc + b, cnt := s.dec.cnt + 1#8 } } ∧
        ∀ i, Memory.read m i = if i = s.dec.cnt.toNat then some b else Memory.read s.dec.buf i)

/-- R69 PAY.DISCARD. -/
def Obligations.PayDiscardFoldsAndCounts : Prop :=
  ∀ (s : State) (b : Byte),
    (s.dec.st = .waitPayload → s.dec.ovf = true → s.dec.cnt.toNat + 1 ≠ s.dec.len.toNat →
      s.instrFor b = .payDiscard b) ∧
    exec (.payDiscard b) s = .next { s with
      dec := { s.dec with acc := s.dec.acc + b, cnt := s.dec.cnt + 1#8 } }

/-- R70 PAY.END.FRAME, for every index below LEN_MAX. -/
def Obligations.PayEndFrameHandsTheFrameOver : Prop :=
  ∀ (s : State) (b : Byte),
    (s.dec.st = .waitPayload → s.dec.ovf = false → s.dec.cnt.toNat + 1 = s.dec.len.toNat → s.dec.acc + b = 0#8 →
      s.instrFor b = .payEndFrame b) ∧
    (s.dec.cnt.toNat < s.params.lenMax.toNat →
      ∃ m : Memory,
        exec (.payEndFrame b) s = .next { s with
          dec := { s.dec with buf := m, acc := s.dec.acc + b, cnt := s.dec.cnt + 1#8, st := .idle }
          ev := { valid := true, kind := 0b10#2, cause := 0b00#2, data := b } } ∧
        ∀ i, Memory.read m i = if i = s.dec.cnt.toNat then some b else Memory.read s.dec.buf i)

/-- R71 PAY.END.BADCS, for every index below LEN_MAX. -/
def Obligations.PayEndBadcsRejectsTheFrame : Prop :=
  ∀ (s : State) (b : Byte),
    (s.dec.st = .waitPayload → s.dec.ovf = false → s.dec.cnt.toNat + 1 = s.dec.len.toNat → s.dec.acc + b ≠ 0#8 →
      s.instrFor b = .payEndBadcs b) ∧
    (s.dec.cnt.toNat < s.params.lenMax.toNat →
      ∃ m : Memory,
        exec (.payEndBadcs b) s = .next { s with
          dec := { s.dec with buf := m, acc := s.dec.acc + b, cnt := s.dec.cnt + 1#8, st := .idle }
          ev := { valid := true, kind := 0b11#2, cause := 0b01#2, data := b } } ∧
        ∀ i, Memory.read m i = if i = s.dec.cnt.toNat then some b else Memory.read s.dec.buf i)

/-- R72 PAY.END.OVF, whatever `acc + b` is; `ovf` stays. -/
def Obligations.PayEndOvfRejectsTheFrame : Prop :=
  ∀ (s : State) (b : Byte),
    (s.dec.st = .waitPayload → s.dec.ovf = true → s.dec.cnt.toNat + 1 = s.dec.len.toNat →
      s.instrFor b = .payEndOvf b) ∧
    exec (.payEndOvf b) s = .next { s with
      dec := { s.dec with acc := s.dec.acc + b, cnt := s.dec.cnt + 1#8, st := .idle }
      ev := { valid := true, kind := 0b11#2, cause := 0b11#2, data := b } }

/-- R73 ST3: as IDLE.SOM on START_MARKER, else back to IDLE with the byte forwarded. -/
def Obligations.St3RecoversInOneStep : Prop :=
  ∀ (s : State) (ovf : Bool) (b : Byte),
    (s.dec.st = .unused → s.instrFor b = .st3 s.dec.ovf b) ∧
    (b = s.params.startMarker → exec (.st3 ovf b) s = exec (.idleSom ovf b) s ∧
      exec (.st3 ovf b) s = .next { s with dec := { s.dec with som := b, acc := 0x00#8, st := .waitLen } }) ∧
    (b ≠ s.params.startMarker → exec (.st3 ovf b) s = .next { s with
      dec := { s.dec with st := .idle }
      ev := { valid := true, kind := 0b01#2, cause := 0b00#2, data := b } })

/-- The model's choice (log entry 7), from R24 and R25: a storing operation whose index is not below LEN_MAX faults by
name, since no such cell exists. -/
def Obligations.StoreOutsideTheBufferFaults : Prop :=
  ∀ (s : State) (b : Byte), s.params.lenMax.toNat ≤ s.dec.cnt.toNat →
    exec (.payStore b) s = .fault (.bufferRange s.dec.cnt.toNat) ∧
    exec (.payEndFrame b) s = .fault (.bufferRange s.dec.cnt.toNat) ∧
    exec (.payEndBadcs b) s = .fault (.bufferRange s.dec.cnt.toNat)

/-! ## Frames -/

/-- R18, R19: no operation and no edge writes a parameter; an operation writes neither the pins, the edge number nor the
boot mark. -/
def Obligations.ParametersAreStatic : Prop :=
  (∀ (i : Instr) (s t : State), exec i s = .next t →
    t.params = s.params ∧ t.booted = s.booted ∧ t.pins = s.pins ∧ t.draw = s.draw) ∧
  (∀ s t : State, step s = .next t → t.params = s.params)

/-- The operations that store nothing leave every cell of the buffer: all but PAY.STORE, PAY.END.FRAME and
PAY.END.BADCS. -/
def Obligations.NonStoringOperationsKeepTheBuffer : Prop :=
  ∀ (i : Instr) (s t : State), (∀ b, i ≠ .payStore b ∧ i ≠ .payEndFrame b ∧ i ≠ .payEndBadcs b) →
    exec i s = .next t → ∀ a, Memory.read t.dec.buf a = Memory.read s.dec.buf a

/-- The storing operations write the one cell `storeIndex` names, the counter before the increment, and no other. -/
def Obligations.StoringOperationsWriteOneCell : Prop :=
  ∀ (i : Instr) (b : Byte) (s t : State), (i = .payStore b ∨ i = .payEndFrame b ∨ i = .payEndBadcs b) →
    exec i s = .next t →
    Memory.read t.dec.buf s.dec.storeIndex = some b ∧
    ∀ a, a ≠ s.dec.storeIndex → Memory.read t.dec.buf a = Memory.read s.dec.buf a

/-- The registers the IDLE operations and ST3 leave: IDLE.SOM writes `som`, `acc` and `st`; IDLE.ASCII only the event
register; ST3 on another byte than START_MARKER `st` and the event register. -/
def Obligations.IdleOperationsFrame : Prop :=
  ∀ (s t : State) (ovf : Bool) (b : Byte),
    (exec (.idleSom ovf b) s = .next t →
      t.dec.len = s.dec.len ∧ t.dec.cnt = s.dec.cnt ∧ t.dec.ovf = s.dec.ovf ∧ t.ev = s.ev) ∧
    (exec (.idleAscii ovf b) s = .next t → t.dec = s.dec) ∧
    (exec (.st3 ovf b) s = .next t →
      t.dec.len = s.dec.len ∧ t.dec.cnt = s.dec.cnt ∧ t.dec.ovf = s.dec.ovf ∧
      (b = s.params.startMarker → t.ev = s.ev) ∧
      (b ≠ s.params.startMarker → t.dec.som = s.dec.som ∧ t.dec.acc = s.dec.acc))

/-- The registers the WAIT_LEN operations leave: `som`, and the event register but for LEN.ZERO's NACK. -/
def Obligations.LengthOperationsFrame : Prop :=
  ∀ (s t : State) (ovf : Bool) (b : Byte),
    (exec (.lenZero ovf) s = .next t → t.dec.som = s.dec.som ∧ t.dec.acc = s.dec.acc) ∧
    (exec (.lenOvf ovf b) s = .next t → t.dec.som = s.dec.som ∧ t.ev = s.ev) ∧
    (exec (.lenOk ovf b) s = .next t → t.dec.som = s.dec.som ∧ t.ev = s.ev)

/-- The registers the WAIT_PAYLOAD operations leave: `som`, `len` and `ovf` always; `st` and the event register where the
frame does not end. -/
def Obligations.PayloadOperationsFrame : Prop :=
  ∀ (i : Instr) (b : Byte) (s t : State),
    (i = .payStore b ∨ i = .payDiscard b ∨ i = .payEndFrame b ∨ i = .payEndBadcs b ∨ i = .payEndOvf b) →
    exec i s = .next t →
    t.dec.som = s.dec.som ∧ t.dec.len = s.dec.len ∧ t.dec.ovf = s.dec.ovf ∧
    ((i = .payStore b ∨ i = .payDiscard b) → t.dec.st = s.dec.st ∧ t.ev = s.ev)

/-! ## The checksum functions -/

/-- R54 to R56: the sum of a sequence, its meaning as an exact sum modulo 256, the generator and the validator. -/
def Obligations.ChecksumFunctionsAreDefined : Prop :=
  csSum [] = 0x00#8 ∧
  (∀ (x : List Byte) (y : Byte), csSum (x ++ [y]) = csSum x + y) ∧
  (∀ x : List Byte, (csSum x).toNat = (x.map BitVec.toNat).sum % 256) ∧
  (∀ x : List Byte, (csGen x).toNat = (256 - (csSum x).toNat) % 256 ∧ csGen x = ~~~ csSum x + 1#8) ∧
  (∀ x : List Byte, csValid x = true ↔ csSum x = 0x00#8)

/-- R57: the subtractive accumulation is the negation of the additive one, and gives the same verdict. -/
def Obligations.SubtractiveSumGivesTheSameVerdict : Prop :=
  ∀ x : List Byte, csSub x = 0#8 - csSum x ∧ (csSub x = 0#8 ↔ csSum x = 0#8)

/-- R58: the generated byte completes a sequence to a valid one, and it is the only byte that does. -/
def Obligations.GeneratedChecksumIsTheOnlyValidOne : Prop :=
  ∀ (x : List Byte) (c : Byte), csValid (x ++ [csGen x]) = true ∧ (csValid (x ++ [c]) = true ↔ c = csGen x)

/-- R60: changing one byte changes the sum by the difference, so a valid sequence with exactly one byte changed is not
valid; in particular with one bit of its last byte flipped. -/
def Obligations.SingleByteErrorIsDetected : Prop :=
  (∀ (x y : List Byte) (a a' : Byte), csSum (x ++ a' :: y) = csSum (x ++ a :: y) + a' - a) ∧
  (∀ (x y : List Byte) (a a' : Byte), a' ≠ a → csValid (x ++ a :: y) = true → csValid (x ++ a' :: y) = false) ∧
  (∀ (x : List Byte) (c : Byte) (k : Nat), k < 8 → csValid (x ++ [c]) = true →
    csValid (x ++ [c ^^^ BitVec.twoPow 8 k]) = false)

/-- R61: the verdict survives any reordering, errors that cancel modulo 256, and another valid sequence in its place. -/
def Obligations.ReorderedAndCancellingErrorsPass : Prop :=
  (∀ x y : List Byte, x.Perm y → csValid x = csValid y) ∧
  (∀ (x y z : List Byte) (a b d : Byte),
    csValid (x ++ (a + d) :: (y ++ (b - d) :: z)) = csValid (x ++ a :: (y ++ b :: z))) ∧
  (∀ (x y z : List Byte) (a b : Byte),
    csValid (x ++ (a ^^^ 0x80#8) :: (y ++ (b ^^^ 0x80#8) :: z)) = csValid (x ++ a :: (y ++ b :: z))) ∧
  (∀ x y : List Byte, csValid x = true → csValid y = true → csValid y = csValid x)

/-! ## Wire frames -/

/-- R44: the wire form of an ACK and of a NACK frame. -/
def Obligations.AckAndNackFramesOnTheWire : Prop :=
  ∀ (P : Params) (C : CommandCodes),
    ackFrame P C = [P.startMarker, 0x02#8, C.ack, 0#8 - (2#8 + C.ack)] ∧
    nackFrame P C = [P.startMarker, 0x02#8, C.nack, 0#8 - (2#8 + C.nack)]

/-- R40: a READ-VALUE request has LENGTH 3 and the response to a read of an n-byte parameter LENGTH 3 + n; R41 gives the
WRITE-VALUE frames the same lengths. -/
def Obligations.CommandFramesHaveTheirLengths : Prop :=
  ∀ (P : Params) (C : CommandCodes) (code : Byte) (data : List Byte), data.length ≤ 252 →
    (readRequest P C code)[1]? = some 3#8 ∧ (readRequest P C code).length = 3 + 2 ∧
    (readResponse P C code data)[1]? = some (BitVec.ofNat 8 (3 + data.length)) ∧
    (readResponse P C code data).length = 3 + data.length + 2 ∧
    (writeRequest P C code data)[1]? = some (BitVec.ofNat 8 (3 + data.length)) ∧
    (writeRequest P C code data).length = 3 + data.length + 2 ∧
    (writeResponse P C code)[1]? = some 3#8 ∧ (writeResponse P C code).length = 3 + 2

/-- Every frame a sender builds by R35 and R37 within the capacity is handed over whole, from any decoder in IDLE: one
FRAME at its last byte, and the buffer holds the body and the checksum. -/
def Obligations.BuiltFramesAreHandedOver : Prop :=
  ∀ (P : Params) (d : Decoder) (body : List Byte), d.st = .idle → body.length + 1 ≤ P.lenMax.toNat →
    ∃ d', feed P d (wireFrame P body) = .next (d', List.replicate (body.length + 2) Event.none ++ [.frame]) ∧
      d'.st = .idle ∧
      Memory.firstBytes d'.buf (body.length + 1) = some (body ++ [csGen (wireLength body :: body)])

/-! ## Invariants -/

/-- The reset state is legal, for every legal choice of the parameters, and so is `State.reset`.  Its zero registers are
the model's choice (log entry 2); the invariant asks nothing of them. -/
def Obligations.ResetStateIsLegal : Prop :=
  (∀ P : Params, P.legal = true → (State.resetWith P).Inv) ∧ State.reset.Inv

/-- R21 and what a pending event says, kept by every edge from every legal state, reset edges included. -/
def Obligations.EveryEdgeKeepsTheInvariant : Prop :=
  ∀ s t : State, s.Inv → step s = .next t → t.Inv

/-- R62: the operation of a step is the one of the case tree, every byte is consumed by exactly one step that completes
with one event or none, and the cycle level never stops. -/
def Obligations.EveryByteIsConsumedByOneStep : Prop :=
  (∀ (s : State) (b : Byte), s.instrFor b =
    match s.dec.st with
    | .idle => if b = s.params.startMarker then .idleSom s.dec.ovf b else .idleAscii s.dec.ovf b
    | .waitLen =>
      if b.toNat = 0 then .lenZero s.dec.ovf
      else if s.params.lenMax.toNat < b.toNat then .lenOvf s.dec.ovf b
      else .lenOk s.dec.ovf b
    | .waitPayload =>
      if s.dec.cnt.toNat + 1 ≠ s.dec.len.toNat then
        if s.dec.ovf = false then .payStore b else .payDiscard b
      else if s.dec.ovf = true then .payEndOvf b
      else if s.dec.acc + b = 0#8 then .payEndFrame b
      else .payEndBadcs b
    | .unused => .st3 s.dec.ovf b) ∧
  (∀ (P : Params) (d : Decoder) (b : Byte), d.Inv P → ∃ d' e, byteStep P d b = .next (d', e)) ∧
  (∀ s : State, s.Inv → Completes (step s))

/-- R21 item 6: a WAIT_LEN step establishes `cnt <= len`, every later edge but a reset edge keeps it in a legal state, and
a step that ends a frame leaves `cnt = len`. -/
def Obligations.CounterNeverPassesLength : Prop :=
  (∀ s t : State, s.handshake = true → s.dec.st = .waitLen → step s = .next t → t.dec.cnt.toNat ≤ t.dec.len.toNat) ∧
  (∀ s t : State, s.Inv → s.inputPins.rst = false → s.dec.cnt.toNat ≤ s.dec.len.toNat → step s = .next t →
    t.dec.cnt.toNat ≤ t.dec.len.toNat) ∧
  (∀ s t : State, s.inputPins.rst = false → (s.dec.st = .waitLen ∨ s.dec.st = .waitPayload) → step s = .next t →
    t.dec.st = .idle → t.dec.cnt = t.dec.len)

/-- The buffer keeps its canonical form (the model's choice, log entry 2) and its bounds through every operation, from any
state, legal or not. -/
def Obligations.OperationsKeepTheBufferCanonical : Prop :=
  ∀ (i : Instr) (s t : State), exec i s = .next t →
    (Memory.wf s.dec.buf = true → Memory.wf t.dec.buf = true) ∧
    (Memory.below s.params.lenMax.toNat s.dec.buf = true → Memory.below t.params.lenMax.toNat t.dec.buf = true)

/-- R25: at an edge that is no reset edge, a cell of the buffer changes only in a WAIT_PAYLOAD step with `ovf = 0`, only
at the counter before the increment, and takes that step's byte; and in a legal state that index is below `len`, itself
at most LEN_MAX. -/
def Obligations.OnlyAPayloadStepWritesTheBuffer : Prop :=
  (∀ (s t : State) (a : Nat), s.inputPins.rst = false → step s = .next t →
    Memory.read t.dec.buf a ≠ Memory.read s.dec.buf a →
    s.handshake = true ∧ s.dec.st = .waitPayload ∧ s.dec.ovf = false ∧ a = s.dec.cnt.toNat ∧
      Memory.read t.dec.buf a = some s.inputPins.inData) ∧
  (∀ s : State, s.Inv → s.dec.st = .waitPayload → s.dec.ovf = false →
    s.dec.cnt.toNat < s.dec.len.toNat ∧ s.dec.len.toNat ≤ s.params.lenMax.toNat)

/-- R75: in WAIT_LEN and WAIT_PAYLOAD a step does not depend on what START_MARKER is; no byte but a zero LENGTH or the
LENGTH-th payload byte leaves the frame; an edge at which no byte is taken leaves the decoder as it is (no timeout) unless
it is a reset edge, and a reset edge abandons the frame. -/
def Obligations.NoResynchronisationInsideAFrame : Prop :=
  (∀ (P Q : Params) (d : Decoder) (b : Byte), P.lenMax = Q.lenMax →
    (d.st = .waitLen ∨ d.st = .waitPayload) → byteStep P d b = byteStep Q d b) ∧
  (∀ (P : Params) (d d' : Decoder) (b : Byte) (e : Event), byteStep P d b = .next (d', e) →
    (d.st = .waitLen → b ≠ 0#8 → d'.st = .waitPayload ∧ e = .none) ∧
    (d.st = .waitPayload → d.cnt.toNat + 1 ≠ d.len.toNat → d'.st = .waitPayload ∧ e = .none)) ∧
  (∀ s t : State, s.handshake = false → step s = .next t →
    (s.inputPins.rst = false → t.dec = s.dec) ∧ (s.inputPins.rst = true → t.dec.st = .idle ∧ t.ev.valid = false))

/-- R74: a step does not read `buf`; before the frame's last byte nothing but `acc` and the buffer depends on the payload
byte; at the last byte what happens depends on the byte only through `acc + b = 0`. -/
def Obligations.PayloadIsNotInterpreted : Prop :=
  (∀ (P : Params) (d d' : Decoder) (b : Byte) (e : Event) (m : Memory), byteStep P d b = .next (d', e) →
    ∃ m', byteStep P { d with buf := m } b = .next ({ d' with buf := m' }, e)) ∧
  (∀ (P : Params) (d d₁ d₂ : Decoder) (b₁ b₂ : Byte) (e₁ e₂ : Event), d.st = .waitPayload →
    (d.cnt.toNat + 1 ≠ d.len.toNat ∨ (d.acc + b₁ = 0#8 ↔ d.acc + b₂ = 0#8)) →
    byteStep P d b₁ = .next (d₁, e₁) → byteStep P d b₂ = .next (d₂, e₂) →
    d₂ = { d₁ with acc := d₂.acc, buf := d₂.buf } ∧ e₂ = e₁)

/-- R10 to R14, R25 and the write of `st` in R62 to R73: the one value each register and each buffer cell takes in a step,
in a legal state or not; and what those rules say of the values.  `som`: once START_MARKER, it stays.  `cnt`: in a frame it
does not wrap and stays at most `len`.  `acc`: the start marker is not folded.  `ovf`: while it is 1 no byte is stored and the
frame ends with NACK(LEN_OVERFLOW).  `buf`: the cell written exists. -/
def Obligations.EachRegisterHasItsWriters : Prop :=
  ∀ (P : Params) (d d' : Decoder) (b : Byte) (e : Event), byteStep P d b = .next (d', e) →
    (d'.st =
      match d.st with
      | .idle | .unused => if b = P.startMarker then .waitLen else .idle
      | .waitLen        => if b = 0#8 then .idle else .waitPayload
      | .waitPayload    => if d.cnt.toNat + 1 = d.len.toNat then .idle else .waitPayload) ∧
    d'.len = (if d.st = .waitLen then b else d.len) ∧
    d'.cnt = (if d.st = .waitLen then 0#8 else if d.st = .waitPayload then d.cnt + 1#8 else d.cnt) ∧
    (d.st = .waitPayload → d.cnt.toNat < d.len.toNat →
      d'.cnt.toNat = d.cnt.toNat + 1 ∧ d'.cnt.toNat ≤ d'.len.toNat) ∧
    d'.acc = (if d.st = .waitLen ∨ d.st = .waitPayload then d.acc + b
              else if b = P.startMarker then 0#8 else d.acc) ∧
    d'.ovf = (if d.st = .waitLen then decide (P.lenMax.toNat < b.toNat) else d.ovf) ∧
    (d.st = .waitPayload → d.ovf = true → e = if d'.st = .idle then .nack .lenOverflow else .none) ∧
    d'.som = (if d.st ≠ .waitLen ∧ d.st ≠ .waitPayload ∧ b = P.startMarker then b else d.som) ∧
    (d.som = P.startMarker → d'.som = P.startMarker) ∧
    (∀ i, Memory.read d'.buf i =
      if d.st = .waitPayload ∧ d.ovf = false ∧ i = d.cnt.toNat then some b else Memory.read d.buf i) ∧
    (d.st = .waitPayload → d.ovf = false → d.cnt.toNat < P.lenMax.toNat) ∧
    (d.st ≠ .waitPayload ∨ d.ovf = true → d'.buf = d.buf)

/-- Which event a step emits: R48's column "emitted by", the causes of R79 to R81, and R82's order of length over
checksum. -/
def Obligations.EventOfEachStep : Prop :=
  ∀ (P : Params) (d d' : Decoder) (b : Byte) (e : Event), byteStep P d b = .next (d', e) →
    (∀ c, e = .ascii c ↔ c = b ∧ (d.st = .idle ∨ d.st = .unused) ∧ b ≠ P.startMarker) ∧
    (e = .frame ↔ d.st = .waitPayload ∧ d.ovf = false ∧ d.cnt.toNat + 1 = d.len.toNat ∧ d.acc + b = 0#8) ∧
    (e = .nack .checksum ↔ d.st = .waitPayload ∧ d.ovf = false ∧ d.cnt.toNat + 1 = d.len.toNat ∧ d.acc + b ≠ 0#8) ∧
    (e = .nack .lenZero ↔ d.st = .waitLen ∧ b = 0#8) ∧
    (e = .nack .lenOverflow ↔ d.st = .waitPayload ∧ d.ovf = true ∧ d.cnt.toNat + 1 = d.len.toNat) ∧
    (e ≠ .none → d'.st = .idle)

/-- R82, R85, R104: while an event is pending and neither reset nor `ev_ready` comes, no number of edges takes a byte,
changes the decoder or changes the event. -/
def Obligations.UnretiredEventHoldsTheBlock : Prop :=
  ∀ (n : Nat) (s t : State), s.ev.valid = true →
    (∀ p ∈ s.pins, p.rst = false ∧ p.evReady = false) → edges n s = .next t →
    t.dec = s.dec ∧ t.ev = s.ev ∧ takenBytes n s = []

/-- R102: a START_MARKER byte taken in IDLE begins a frame with no event, and no edge ever makes START_MARKER pending as an
ASCII event. -/
def Obligations.ConsoleNeverReceivesStartMarker : Prop :=
  (∀ s : State, s.booted = true → s.handshake = true → s.dec.st = .idle →
    s.inputPins.inData = s.params.startMarker →
    ∃ t, step s = .next t ∧ t.dec.st = .waitLen ∧ t.ev.valid = false) ∧
  (∀ s t : State, s.ev.valid = false → step s = .next t → t.ev.valid = true → t.ev.kind = 0b01#2 →
    t.ev.data ≠ t.params.startMarker)

/-! ## The consumer's window -/

/-- R26, R50: while a FRAME is pending in a legal state, the outputs show START_MARKER, LENGTH and, at every index below it,
the byte of the buffer cell of that index; those bytes in index order are a sequence that CS_VALID accepts after LENGTH and
whose last byte is `ev_data`; whatever the free values are.  (That index order is arrival order:
`ValidFramesAreDispatchedExactlyOnce`.) -/
def Obligations.PendingFrameIsPresentedWhole : Prop :=
  ∀ s : State, s.Inv → s.ev.valid = true → s.ev.kind = 0b10#2 →
    s.frameSom = s.params.startMarker ∧ s.frameLen = s.dec.len ∧
    (∀ a : Byte, a.toNat < s.dec.len.toNat → Memory.read s.dec.buf a.toNat = some (s.rdData a)) ∧
    ∃ ps : List Byte, ps.length = s.dec.len.toNat ∧ csValid (s.dec.len :: ps) = true ∧
      (∀ a : Byte, a.toNat < s.dec.len.toNat → ps[a.toNat]? = some (s.rdData a)) ∧
      ps.getLast? = some s.ev.data

/-- R31, R98: while a FRAME is pending and not retired, no edge but a reset edge changes what the consumer reads below
LENGTH. -/
def Obligations.FrameStaysReadableUntilRetired : Prop :=
  ∀ s t : State, s.Inv → s.ev.valid = true → s.ev.kind = 0b10#2 → s.inputPins.rst = false →
    s.inputPins.evReady = false → step s = .next t →
    t.frameSom = s.frameSom ∧ t.frameLen = s.frameLen ∧
    ∀ a : Byte, a.toNat < s.dec.len.toNat → t.rdData a = s.rdData a

/-! ## Streams of bytes -/

/-- R59, R100: from IDLE, after START_MARKER, a LENGTH L and any k < L further bytes, the decoder waits with no event, has
counted k bytes and holds CS_SUM of LENGTH and those bytes, stored or discarded; each of them went to its own cell unless
the frame is oversized. -/
def Obligations.PartialFrameWaits : Prop :=
  ∀ (P : Params) (d : Decoder) (L : Byte) (ps : List Byte), d.st = .idle → ps.length < L.toNat →
    ∃ d', feed P d (P.startMarker :: L :: ps) = .next (d', List.replicate (ps.length + 2) Event.none) ∧
      d'.st = .waitPayload ∧ d'.len = L ∧ d'.cnt.toNat = ps.length ∧ d'.acc = csSum (L :: ps) ∧
      (d'.ovf = true ↔ P.lenMax.toNat < L.toNat) ∧
      (L.toNat ≤ P.lenMax.toNat → Memory.firstBytes d'.buf ps.length = some ps) ∧
      (P.lenMax.toNat < L.toNat → d'.buf = d.buf)

/-- R76: a valid frame from IDLE performs IDLE.SOM, LEN.OK, L - 1 times PAY.STORE and PAY.END.FRAME, emits one FRAME at its
last byte and nothing else, and ends as R76 says; conversely a FRAME is emitted only at the last byte of such a stream,
begun in IDLE. -/
def Obligations.ValidFramesAreDispatchedExactlyOnce : Prop :=
  (∀ (P : Params) (d : Decoder) (L : Byte) (ps : List Byte), d.st = .idle → 1 ≤ L.toNat →
    L.toNat ≤ P.lenMax.toNat → ps.length + 1 = L.toNat →
    performed P d (P.startMarker :: L :: (ps ++ [csGen (L :: ps)])) =
      .idleSom d.ovf P.startMarker :: .lenOk d.ovf L :: (ps.map Instr.payStore ++ [.payEndFrame (csGen (L :: ps))]) ∧
    ∃ d', feed P d (P.startMarker :: L :: (ps ++ [csGen (L :: ps)])) =
        .next (d', List.replicate (ps.length + 2) Event.none ++ [.frame]) ∧
      d'.st = .idle ∧ d'.som = P.startMarker ∧ d'.len = L ∧ d'.cnt = L ∧ d'.acc = 0#8 ∧
      ∀ k, k < L.toNat → Memory.read d'.buf k = (ps ++ [csGen (L :: ps)])[k]?) ∧
  (∀ (P : Params) (d d' : Decoder) (bs : List Byte) (es : List Event), d.st = .idle →
    feed P d bs = .next (d', es ++ [.frame]) →
    ∃ (before : List Byte) (L : Byte) (ps : List Byte) (d₀ : Decoder) (es₀ : List Event),
      bs = before ++ P.startMarker :: L :: ps ∧ feed P d before = .next (d₀, es₀) ∧ d₀.st = .idle ∧
      1 ≤ L.toNat ∧ L.toNat ≤ P.lenMax.toNat ∧ ps.length = L.toNat ∧ csValid (L :: ps) = true ∧
      es = es₀ ++ List.replicate (ps.length + 1) Event.none)

/-- R77: from IDLE every completed frame ends in IDLE with exactly one event, at its last byte: NACK(LEN_ZERO) for L = 0,
FRAME or NACK(CHECKSUM) by CS_VALID for 1 <= L <= LEN_MAX, NACK(LEN_OVERFLOW) above; one flipped bit in the last byte of a
valid frame gives one NACK(CHECKSUM).  The LENGTH taken alone says where the frame ends: whatever follows those bytes (the
rest of the sender's frame, where LENGTH was corrupted) is taken from IDLE. -/
def Obligations.EveryCompletedFrameGetsOneEvent : Prop :=
  (∀ (P : Params) (d : Decoder), d.st = .idle →
    ∃ d', feed P d [P.startMarker, 0#8] = .next (d', [.none, .nack .lenZero]) ∧ d'.st = .idle) ∧
  (∀ (P : Params) (d : Decoder) (L : Byte) (ps : List Byte), d.st = .idle → 1 ≤ L.toNat → ps.length = L.toNat →
    ∃ (d' : Decoder) (es : List Event),
      es = List.replicate (ps.length + 1) Event.none ++
        [if P.lenMax.toNat < L.toNat then .nack .lenOverflow
         else if csValid (L :: ps) = true then .frame else .nack .checksum] ∧
      feed P d (P.startMarker :: L :: ps) = .next (d', es) ∧ d'.st = .idle ∧
      ∀ (rest : List Byte) (d'' : Decoder) (es' : List Event), feed P d' rest = .next (d'', es') →
        feed P d (P.startMarker :: L :: (ps ++ rest)) = .next (d'', es ++ es')) ∧
  (∀ (P : Params) (d : Decoder) (L : Byte) (ps : List Byte) (k : Nat), d.st = .idle → 1 ≤ L.toNat →
    L.toNat ≤ P.lenMax.toNat → ps.length + 1 = L.toNat → k < 8 →
    ∃ d', feed P d (P.startMarker :: L :: (ps ++ [csGen (L :: ps) ^^^ BitVec.twoPow 8 k])) =
        .next (d', List.replicate (ps.length + 2) Event.none ++ [.nack .checksum]) ∧
      d'.st = .idle)

/-- R103: a frame of LENGTH 1 is accepted; it passes exactly if its only byte is 0xFF, which the consumer then finds in
cell 0. -/
def Obligations.OneByteFramesAreAccepted : Prop :=
  ∀ (P : Params) (d : Decoder) (b : Byte), P.legal = true → d.st = .idle →
    ∃ d', feed P d [P.startMarker, 1#8, b] =
        .next (d', [.none, .none, if b = 0xFF#8 then .frame else .nack .checksum]) ∧
      d'.st = .idle ∧ d'.len = 1#8 ∧ Memory.read d'.buf 0 = some b

/-- R23: what a stream does from IDLE depends on no register and no cell that reset leaves unspecified: two decoders in
IDLE give the same events for the same bytes, end in the same `st`, and while a frame is under way or has just been handed
over agree on `len`, `cnt`, `acc`, `ovf` and every cell the consumer may read. -/
def Obligations.HiddenRegistersDoNotShow : Prop :=
  ∀ (P : Params) (d₁ d₂ : Decoder) (bs : List Byte), d₁.st = .idle → d₂.st = .idle →
    ∃ d₁' d₂' es, feed P d₁ bs = .next (d₁', es) ∧ feed P d₂ bs = .next (d₂', es) ∧ d₁'.st = d₂'.st ∧
      (d₁'.st ≠ .idle → d₁'.som = d₂'.som ∧ d₁'.acc = d₂'.acc) ∧
      (d₁'.st = .waitPayload → d₁'.len = d₂'.len ∧ d₁'.cnt = d₂'.cnt ∧ d₁'.ovf = d₂'.ovf) ∧
      (es.getLast? = some .frame → d₁'.som = d₂'.som ∧ d₁'.len = d₂'.len ∧
        ∀ k, k < d₁'.len.toNat → Memory.read d₁'.buf k = Memory.read d₂'.buf k)

/-- R97: from a legal state, through any number of edges without reset, the wrapper completes, and the decoder state and
the events of its steps are those of folding STEP over the bytes in handshake order, whatever the pins do between
handshakes. -/
def Obligations.WrapperRefinesTheByteStepModel : Prop :=
  ∀ (n : Nat) (s : State), s.Inv → (∀ p ∈ s.pins, p.rst = false) →
    ∃ t, edges n s = .next t ∧ feed s.params s.dec (takenBytes n s) = .next (t.dec, stepEvents n s)

/-- R104, R106: a producer that offers each byte of a stream and collaborators that retire at the next edge get the whole
stream taken in two edges a byte, with every event retired.  The schedule of the pins is the model's (log entry 6). -/
def Obligations.ServedStreamIsFullyConsumed : Prop :=
  ∀ (bs : List Byte) (s : State), s.Inv → s.ev.valid = false → s.pins = servedPins bs →
    ∃ t es, edges (2 * bs.length) s = .next t ∧ takenBytes (2 * bs.length) s = bs ∧
      feed s.params s.dec bs = .next (t.dec, es) ∧ t.ev.valid = false ∧ t.pins = []
end

