-- ==== Sys2Proof/Laws/Checksum.lean ====
section
/-! SUPPORT. The checksum functions over appended bytes. -/

namespace Sys2Proof.Machine

@[simp] theorem csSum_nil : csSum [] = 0#8 := rfl

/-- R54: `CS_SUM(x ++ [y]) = CS_SUM(x) + y`. -/
@[simp] theorem csSum_concat (x : List Byte) (y : Byte) : csSum (x ++ [y]) = csSum x + y := by
  simp [csSum]

theorem foldl_add_start (x : List Byte) (a : Byte) : x.foldl (fun a y => a + y) a = a + csSum x := by
  induction x generalizing a with
  | nil => simp
  | cons y x ih =>
    rw [csSum, List.foldl_cons, List.foldl_cons, ih, ih]
    simp [BitVec.add_assoc]

theorem csSum_cons (y : Byte) (x : List Byte) : csSum (y :: x) = y + csSum x := by
  rw [csSum, List.foldl_cons, foldl_add_start]; simp

theorem csSum_append (x y : List Byte) : csSum (x ++ y) = csSum x + csSum y := by
  induction x with
  | nil => simp
  | cons a x ih => simp [csSum_cons, ih, BitVec.add_assoc]

theorem csValid_iff (x : List Byte) : csValid x = true ↔ csSum x = 0#8 := by simp [csValid]

end Sys2Proof.Machine
end

