-- ==== Sys2Proof/Laws/Decode.lean ====
section
/-! SUPPORT. The fields of a packed selection word, and the operation a word selects. -/

namespace Sys2Proof

@[simp] theorem phaseOfCode_phaseCode (p : Phase) : phaseOfCode (phaseCode p) = p := by cases p <;> rfl

/-- Each bit of a packed word, from the fields. -/
theorem getLsbD_packWord (o : Bool) (p : Phase) (b : Byte) (i : Nat) :
    (packWord o p b).getLsbD i =
      if i < 8 then b.getLsbD i
      else if i < 10 then (phaseCode p).getLsbD (i - 8) else (BitVec.ofBool o).getLsbD (i - 10) := by
  show (BitVec.ofBool o ++ (phaseCode p ++ b) : BitVec (1 + (2 + 8))).getLsbD i = _
  rw [BitVec.getLsbD_append, BitVec.getLsbD_append]
  by_cases h8 : i < 8
  · simp only [h8, show i < 2 + 8 by omega, ↓reduceIte]
  · by_cases h10 : i < 10
    · simp only [h8, h10, ↓reduceIte]
    · simp only [h8, h10, ↓reduceIte]

@[simp] theorem wordOvf_packWord (o : Bool) (p : Phase) (b : Byte) : wordOvf (packWord o p b) = o := by
  rw [wordOvf, getLsbD_packWord]
  cases o <;> rfl

@[simp] theorem wordPhase_packWord (o : Bool) (p : Phase) (b : Byte) : wordPhase (packWord o p b) = p := by
  have h : (packWord o p b).extractLsb' 8 2 = phaseCode p := by
    apply BitVec.eq_of_getLsbD_eq
    intro i hi
    rw [BitVec.getLsbD_extractLsb', getLsbD_packWord]
    simp only [show ¬ 8 + i < 8 by omega, show 8 + i < 10 by omega, hi, decide_true, Bool.true_and, ↓reduceIte,
      Nat.add_sub_cancel_left]
  rw [wordPhase, h, phaseOfCode_phaseCode]

@[simp] theorem wordByte_packWord (o : Bool) (p : Phase) (b : Byte) : wordByte (packWord o p b) = b := by
  apply BitVec.eq_of_getLsbD_eq
  intro i hi
  rw [wordByte, BitVec.getLsbD_extractLsb', getLsbD_packWord]
  simp only [Nat.zero_add, hi, decide_true, Bool.true_and, ↓reduceIte]

/-- A word is packed from its own fields. -/
theorem packWord_fields (w : SelWord) : packWord (wordOvf w) (wordPhase w) (wordByte w) = w := by
  have hc : ∀ c : BitVec 2, phaseCode (phaseOfCode c) = c := by decide
  apply BitVec.eq_of_getLsbD_eq
  intro i hi
  rw [getLsbD_packWord, wordPhase, hc, wordByte, BitVec.getLsbD_extractLsb', BitVec.getLsbD_extractLsb']
  by_cases h8 : i < 8
  · simp only [h8, ↓reduceIte, decide_true, Bool.true_and, Nat.zero_add]
  · by_cases h10 : i < 10
    · simp only [h8, h10, ↓reduceIte, show i - 8 < 2 by omega, decide_true, Bool.true_and, show 8 + (i - 8) = i by omega]
    · have : i = 10 := by omega
      subst this
      cases h : w.getLsbD 10 <;> simp only [wordOvf, h] <;> rfl

@[simp] theorem select_packWord (P : Params) (c : Side) (o : Bool) (p : Phase) (b : Byte) :
    select P c (packWord o p b) = selectOp P c o p b := by simp [select]

/-- The operation of a step, from the registers. -/
theorem Machine.instrFor_eq (s : Machine.State) (b : Byte) :
    s.instrFor b = selectOp s.params s.dec.side s.dec.ovf s.dec.st b := by
  simp [Machine.State.instrFor, Machine.Decoder.word]

end Sys2Proof
end

