-- ==== Sys2Proof/Laws/Memory.lean ====
section
/-! SUPPORT. The payload buffer: read after write, the canonical form, and the bytes in index order. -/

namespace Sys2Proof.Machine

@[simp] theorem read_nil (i : Nat) : Memory.read [] i = none := rfl

@[simp] theorem firstBytes_zero (m : Memory) : Memory.firstBytes m 0 = some [] := rfl

/-- A write changes its own cell and no other. -/
theorem read_write (m : Memory) (i j : Nat) (v : Byte) :
    Memory.read (Memory.write m i v) j = if j = i then some v else Memory.read m j := by
  induction m with
  | nil => simp [Memory.write, Memory.read, eq_comm]
  | cons c m ih =>
    obtain ⟨a, x⟩ := c
    unfold Memory.write
    split
    · by_cases h : j = i
      · simp [Memory.read, h]
      · simp [Memory.read, h, Ne.symm h]
    · split
      · next h =>
        subst h
        by_cases h : i = j
        · simp [Memory.read, h]
        · simp [Memory.read, h, Ne.symm h]
      · by_cases h : a = j
        · subst h; simp [Memory.read]; intro h'; omega
        · simp [Memory.read, h, ih]

@[simp] theorem read_write_same (m : Memory) (i : Nat) (v : Byte) :
    Memory.read (Memory.write m i v) i = some v := by simp [read_write]

theorem read_write_other (m : Memory) {i j : Nat} (v : Byte) (h : j ≠ i) :
    Memory.read (Memory.write m i v) j = Memory.read m j := by simp [read_write, h]

theorem risesAbove_write (m : Memory) (lo i : Nat) (v : Byte) (hi : lo < i)
    (h : Memory.risesAbove lo m = true) : Memory.risesAbove lo (Memory.write m i v) = true := by
  induction m generalizing lo with
  | nil => simp [Memory.write, Memory.risesAbove, hi]
  | cons c m ih =>
    obtain ⟨a, x⟩ := c
    simp only [Memory.risesAbove, Bool.and_eq_true, decide_eq_true_eq] at h
    unfold Memory.write
    split
    · simp [Memory.risesAbove, *]
    · split
      · next h' => subst h'; simp [Memory.risesAbove, h]
      · simp only [Memory.risesAbove, Bool.and_eq_true, decide_eq_true_eq]
        exact ⟨h.1, ih a (by omega) h.2⟩

/-- A write keeps the canonical form. -/
theorem wf_write (m : Memory) (i : Nat) (v : Byte) (h : Memory.wf m = true) :
    Memory.wf (Memory.write m i v) = true := by
  cases m with
  | nil => rfl
  | cons c m =>
    obtain ⟨a, x⟩ := c
    simp only [Memory.wf] at h
    unfold Memory.write
    split
    · simp [Memory.wf, Memory.risesAbove, *]
    · split
      · next h' => subst h'; simpa [Memory.wf] using h
      · simp only [Memory.wf]
        exact risesAbove_write m a i v (by omega) h

/-- A write below `n` keeps the buffer below `n`. -/
theorem below_write (m : Memory) (n i : Nat) (v : Byte) (hi : i < n) (h : Memory.below n m = true) :
    Memory.below n (Memory.write m i v) = true := by
  induction m with
  | nil => simp [Memory.write, Memory.below, hi]
  | cons c m ih =>
    obtain ⟨a, x⟩ := c
    simp only [Memory.below, List.all_cons, Bool.and_eq_true, decide_eq_true_eq] at h ih ⊢
    unfold Memory.write
    split
    · simp [hi, h.1]; simpa using h.2
    · split
      · simp [hi]; simpa using h.2
      · simp [h.1, ih h.2]

theorem firstBytes_succ (m : Memory) (n : Nat) (xs : List Byte) (x : Byte)
    (h : Memory.firstBytes m n = some xs) (hx : Memory.read m n = some x) :
    Memory.firstBytes m (n + 1) = some (xs ++ [x]) := by
  simp [Memory.firstBytes, h, hx]

/-- A write at or above `n` leaves the first `n` bytes. -/
theorem firstBytes_write_above (m : Memory) (n i : Nat) (v : Byte) (h : n ≤ i) :
    Memory.firstBytes (Memory.write m i v) n = Memory.firstBytes m n := by
  induction n with
  | zero => rfl
  | succ n ih => simp [Memory.firstBytes, ih (by omega), read_write_other m v (show n ≠ i by omega)]

/-- Storing the next byte appends it to the stored bytes. -/
theorem firstBytes_write_next (m : Memory) (n : Nat) (v : Byte) (xs : List Byte)
    (h : Memory.firstBytes m n = some xs) :
    Memory.firstBytes (Memory.write m n v) (n + 1) = some (xs ++ [v]) :=
  firstBytes_succ _ n xs v (by rw [firstBytes_write_above m n n v (le_refl n)]; exact h) (read_write_same m n v)

theorem length_firstBytes (m : Memory) (n : Nat) (xs : List Byte) (h : Memory.firstBytes m n = some xs) :
    xs.length = n := by
  induction n generalizing xs with
  | zero => simp at h; simp [← h]
  | succ n ih =>
    simp only [Memory.firstBytes] at h
    split at h
    · next ys y hy _ => cases h; simp [ih ys hy]
    · cases h

/-- The bytes in index order are the buffer's cells. -/
theorem read_of_firstBytes (m : Memory) (n : Nat) (xs : List Byte) (h : Memory.firstBytes m n = some xs)
    (i : Nat) (hi : i < n) : Memory.read m i = xs[i]? := by
  induction n generalizing xs with
  | zero => omega
  | succ n ih =>
    simp only [Memory.firstBytes] at h
    split at h
    · next ys y hy hr =>
      cases h
      have hl := length_firstBytes m n ys hy
      by_cases hin : i < n
      · rw [ih ys hy hin, List.getElem?_append_left (by omega)]
      · have : i = n := by omega
        subst this
        rw [hr, List.getElem?_append_right (by omega)]; simp [hl]
    · cases h

end Sys2Proof.Machine
end

