-- ==== Sys2Proof/Laws/State.lean ====
section
/-! SUPPORT. One lemma per field and update of the state, and what the shared operations over the state answer. -/

namespace Sys2Proof.Machine

/-! The edge's bookkeeping. -/

@[simp] theorem tick_params (s : State) : s.tick.params = s.params := rfl
@[simp] theorem tick_dec (s : State) : s.tick.dec = s.dec := rfl
@[simp] theorem tick_ev (s : State) : s.tick.ev = s.ev := rfl
@[simp] theorem tick_booted (s : State) : s.tick.booted = s.booted := rfl
@[simp] theorem tick_pins (s : State) : s.tick.pins = s.pins.tail := rfl
@[simp] theorem tick_draw (s : State) : s.tick.draw = s.draw + 1 := rfl

@[simp] theorem retire_params (s : State) : s.retire.params = s.params := rfl
@[simp] theorem retire_dec (s : State) : s.retire.dec = s.dec := rfl
@[simp] theorem retire_ev_valid (s : State) : s.retire.ev.valid = false := rfl
@[simp] theorem retire_ev_kind (s : State) : s.retire.ev.kind = s.ev.kind := rfl
@[simp] theorem retire_ev_cause (s : State) : s.retire.ev.cause = s.ev.cause := rfl
@[simp] theorem retire_ev_data (s : State) : s.retire.ev.data = s.ev.data := rfl
@[simp] theorem retire_booted (s : State) : s.retire.booted = s.booted := rfl
@[simp] theorem retire_pins (s : State) : s.retire.pins = s.pins := rfl
@[simp] theorem retire_draw (s : State) : s.retire.draw = s.draw := rfl

@[simp] theorem resetEdge_params (s : State) : s.resetEdge.params = s.params := rfl
@[simp] theorem resetEdge_st (s : State) : s.resetEdge.dec.st = .idle := rfl
@[simp] theorem resetEdge_ovf (s : State) : s.resetEdge.dec.ovf = false := rfl
@[simp] theorem resetEdge_buf (s : State) : s.resetEdge.dec.buf = [] := rfl
@[simp] theorem resetEdge_ev_valid (s : State) : s.resetEdge.ev.valid = false := rfl
@[simp] theorem resetEdge_booted (s : State) : s.resetEdge.booted = true := rfl
@[simp] theorem resetEdge_pins (s : State) : s.resetEdge.pins = s.pins := rfl
@[simp] theorem resetEdge_draw (s : State) : s.resetEdge.draw = s.draw := rfl

@[simp] theorem resetWith_params (P : Params) : (State.resetWith P).params = P := rfl
@[simp] theorem resetWith_st (P : Params) : (State.resetWith P).dec.st = .idle := rfl
@[simp] theorem resetWith_ovf (P : Params) : (State.resetWith P).dec.ovf = false := rfl
@[simp] theorem resetWith_buf (P : Params) : (State.resetWith P).dec.buf = [] := rfl
@[simp] theorem resetWith_ev_valid (P : Params) : (State.resetWith P).ev.valid = false := rfl
@[simp] theorem resetWith_booted (P : Params) : (State.resetWith P).booted = true := rfl

@[simp] theorem atDecoder_params (P : Params) (d : Decoder) : (State.atDecoder P d).params = P := rfl
@[simp] theorem atDecoder_dec (P : Params) (d : Decoder) : (State.atDecoder P d).dec = d := rfl
@[simp] theorem atDecoder_ev_valid (P : Params) (d : Decoder) : (State.atDecoder P d).ev.valid = false := rfl

/-! The decoder's register updates. -/

@[simp] theorem fold_acc (d : Decoder) (b : Byte) : (d.fold b).acc = d.acc + b := rfl
@[simp] theorem fold_st (d : Decoder) (b : Byte) : (d.fold b).st = d.st := rfl
@[simp] theorem fold_som (d : Decoder) (b : Byte) : (d.fold b).som = d.som := rfl
@[simp] theorem fold_len (d : Decoder) (b : Byte) : (d.fold b).len = d.len := rfl
@[simp] theorem fold_cnt (d : Decoder) (b : Byte) : (d.fold b).cnt = d.cnt := rfl
@[simp] theorem fold_ovf (d : Decoder) (b : Byte) : (d.fold b).ovf = d.ovf := rfl
@[simp] theorem fold_buf (d : Decoder) (b : Byte) : (d.fold b).buf = d.buf := rfl

@[simp] theorem count_cnt (d : Decoder) : d.count.cnt = d.cnt + 1#8 := rfl
@[simp] theorem count_acc (d : Decoder) : d.count.acc = d.acc := rfl
@[simp] theorem count_st (d : Decoder) : d.count.st = d.st := rfl
@[simp] theorem count_som (d : Decoder) : d.count.som = d.som := rfl
@[simp] theorem count_len (d : Decoder) : d.count.len = d.len := rfl
@[simp] theorem count_ovf (d : Decoder) : d.count.ovf = d.ovf := rfl
@[simp] theorem count_buf (d : Decoder) : d.count.buf = d.buf := rfl

@[simp] theorem takeLength_len (d : Decoder) (b : Byte) (o : Bool) : (d.takeLength b o).len = b := rfl
@[simp] theorem takeLength_cnt (d : Decoder) (b : Byte) (o : Bool) : (d.takeLength b o).cnt = 0#8 := rfl
@[simp] theorem takeLength_acc (d : Decoder) (b : Byte) (o : Bool) : (d.takeLength b o).acc = d.acc + b := rfl
@[simp] theorem takeLength_ovf (d : Decoder) (b : Byte) (o : Bool) : (d.takeLength b o).ovf = o := rfl
@[simp] theorem takeLength_st (d : Decoder) (b : Byte) (o : Bool) : (d.takeLength b o).st = d.st := rfl
@[simp] theorem takeLength_som (d : Decoder) (b : Byte) (o : Bool) : (d.takeLength b o).som = d.som := rfl
@[simp] theorem takeLength_buf (d : Decoder) (b : Byte) (o : Bool) : (d.takeLength b o).buf = d.buf := rfl

@[simp] theorem takePayload_acc (d : Decoder) (b : Byte) : (d.takePayload b).acc = d.acc + b := rfl
@[simp] theorem takePayload_cnt (d : Decoder) (b : Byte) : (d.takePayload b).cnt = d.cnt + 1#8 := rfl
@[simp] theorem takePayload_st (d : Decoder) (b : Byte) : (d.takePayload b).st = d.st := rfl
@[simp] theorem takePayload_som (d : Decoder) (b : Byte) : (d.takePayload b).som = d.som := rfl
@[simp] theorem takePayload_len (d : Decoder) (b : Byte) : (d.takePayload b).len = d.len := rfl
@[simp] theorem takePayload_ovf (d : Decoder) (b : Byte) : (d.takePayload b).ovf = d.ovf := rfl
@[simp] theorem takePayload_buf (d : Decoder) (b : Byte) : (d.takePayload b).buf = d.buf := rfl

/-! The event register. -/

@[simp] theorem kindCode_ascii (b : Byte) : kindCode (.ascii b) = 0b01#2 := rfl
@[simp] theorem kindCode_frame : kindCode .frame = 0b10#2 := rfl
@[simp] theorem kindCode_nack (c : Cause) : kindCode (.nack c) = 0b11#2 := rfl
@[simp] theorem causeCode_ascii (b : Byte) : causeCode (.ascii b) = 0b00#2 := rfl
@[simp] theorem causeCode_frame : causeCode .frame = 0b00#2 := rfl
@[simp] theorem causeCode_nack (c : Cause) : causeCode (.nack c) = causeBits c := rfl

@[simp] theorem load_none (r : EventReg) (b : Byte) : r.load b .none = r := rfl
@[simp] theorem load_ascii (r : EventReg) (b c : Byte) :
    r.load b (.ascii c) = { valid := true, kind := 0b01#2, cause := 0b00#2, data := b } := rfl
@[simp] theorem load_frame (r : EventReg) (b : Byte) :
    r.load b .frame = { valid := true, kind := 0b10#2, cause := 0b00#2, data := b } := rfl
@[simp] theorem load_nack (r : EventReg) (b : Byte) (c : Cause) :
    r.load b (.nack c) = { valid := true, kind := 0b11#2, cause := causeBits c, data := b } := rfl

theorem event_of_not_valid (r : EventReg) (h : r.valid = false) : r.event = .none := by
  simp [EventReg.event, h]

/-- Reading the event back after loading it into an empty channel gives the event, for every event a step emits. -/
theorem event_load (r : EventReg) (b : Byte) (e : Event) (h : r.valid = false) (he : ∀ c, e = .ascii c → c = b) :
    (r.load b e).event = e := by
  cases e with
  | none => exact event_of_not_valid r h
  | ascii c => simp [EventReg.event, he c rfl]
  | frame => simp [EventReg.event]
  | nack c => cases c <;> simp [EventReg.event, causeBits]

/-! The shared operations. -/

theorem commit_eq (s : State) (b : Byte) (d : Decoder) (e : Event) :
    s.commit b d e = .next { s with dec := d, ev := s.ev.load b e } := rfl

theorem rejectFrame_eq (s : State) (b : Byte) (d : Decoder) (c : Cause) :
    s.rejectFrame b d c = s.commit b { d with st := .idle } (.nack c) := rfl

theorem beginFrame_eq (s : State) (b : Byte) :
    s.beginFrame b = s.commit b { s.dec with som := b, acc := 0#8, st := .waitLen } .none := rfl

theorem storePayload_ok (s : State) (b : Byte) (h : s.dec.cnt.toNat < s.params.lenMax.toNat) :
    s.storePayload b = .ok { s.dec with buf := Memory.write s.dec.buf s.dec.cnt.toNat b } := by
  simp [State.storePayload, Decoder.storeIndex, h]

theorem storePayload_atDecoder_ok (P : Params) (d : Decoder) (b : Byte) (h : d.cnt.toNat < P.lenMax.toNat) :
    (State.atDecoder P d).storePayload b = .ok { d with buf := Memory.write d.buf d.cnt.toNat b } :=
  storePayload_ok (State.atDecoder P d) b h

theorem storePayload_error (s : State) (b : Byte) (h : ¬ s.dec.cnt.toNat < s.params.lenMax.toNat) :
    s.storePayload b = .error (.bufferRange s.dec.cnt.toNat) := by
  simp [State.storePayload, Decoder.storeIndex, h]

/-! The output pins. -/

@[simp] theorem eventWindow_of_booted (s : State) (h : s.booted = true) : s.eventWindow = s.ev.valid := by
  simp [State.eventWindow, h]

theorem frameWindow_iff (s : State) :
    s.frameWindow = true ↔ s.booted = true ∧ s.ev.valid = true ∧ s.ev.kind = 0b10#2 := by
  simp [State.frameWindow, State.eventWindow, and_assoc]

theorem frameSom_of_window (s : State) (h : s.frameWindow = true) : s.frameSom = s.dec.som := by
  simp [State.frameSom, h]

theorem frameLen_of_window (s : State) (h : s.frameWindow = true) : s.frameLen = s.dec.len := by
  simp [State.frameLen, h]

/-- R26: below `len` the read port shows the cell's byte. -/
theorem rdData_of_window (s : State) (a x : Byte) (h : s.frameWindow = true) (ha : a.toNat < s.dec.len.toNat)
    (hx : Memory.read s.dec.buf a.toNat = some x) : s.rdData a = x := by
  simp [State.rdData, h, ha, hx]

end Sys2Proof.Machine
end

