-- ==== Sys2Proof/Laws/Step.lean ====
section
/-! SUPPORT. Everything one clock edge can do, said once, and the placing of a table word. -/

namespace Sys2Proof.Machine

theorem handshake_iff (s : State) :
    s.handshake = true ↔ s.inputPins.rst = false ∧ s.inputPins.inValid = true ∧ s.ev.valid = false := by
  cases hr : s.inputPins.rst <;> simp [State.handshake, State.inReady, hr]

/-- An edge that answers a next state is a reset edge, retires the pending event, holds it, runs an operation, or finds
no byte offered. -/
theorem step_cases {s t : State} (h : step s = .next t) :
    (s.inputPins.rst = true ∧ t = s.tick.resetEdge) ∨
    (s.inputPins.rst = false ∧ s.booted = true ∧ s.ev.valid = true ∧ s.ev.kind ≠ 0b00#2 ∧
      s.inputPins.evReady = true ∧ t = s.tick.retire) ∨
    (s.inputPins.rst = false ∧ s.booted = true ∧ s.ev.valid = true ∧ s.ev.kind ≠ 0b00#2 ∧
      s.inputPins.evReady = false ∧ t = s.tick) ∨
    (s.handshake = true ∧ s.booted = true ∧ exec (s.instrFor s.inputPins.inData) s.tick = .next t) ∨
    (s.inputPins.rst = false ∧ s.booted = true ∧ s.ev.valid = false ∧ s.inputPins.inValid = false ∧ t = s.tick) := by
  unfold step State.clockEdge at h
  cases hr : s.inputPins.rst
  · cases hb : s.booted
    · simp [hr, hb] at h
    · simp only [hr, hb, Bool.false_eq_true, ↓reduceIte] at h
      unfold State.runEdge at h
      cases hv : s.ev.valid
      · simp only [hv, Bool.false_eq_true, ↓reduceIte] at h
        cases hi : s.inputPins.inValid
        · have hn : s.handshake = false := by simp [State.handshake, hi]
          simp only [hn, Bool.false_eq_true, ↓reduceIte, Host.Outcome.next.injEq] at h
          simp [h]
        · have hy : s.handshake = true := (handshake_iff s).2 ⟨hr, hi, hv⟩
          simp only [hy, ↓reduceIte] at h
          simp [hy, h]
      · simp only [hv, ↓reduceIte] at h
        split at h
        · cases h
        · next hk =>
          cases he : s.inputPins.evReady <;>
            simp only [he, Bool.false_eq_true, ↓reduceIte, Host.Outcome.next.injEq] at h
          · exact .inr (.inr (.inl ⟨rfl, rfl, rfl, hk, rfl, h.symm⟩))
          · exact .inr (.inl ⟨rfl, rfl, rfl, hk, rfl, h.symm⟩)
  · simp only [hr, ↓reduceIte, Host.Outcome.next.injEq] at h
    simp [h]

/-- A reset edge, whatever the state. -/
theorem step_reset {s : State} (h : s.inputPins.rst = true) : step s = .next s.tick.resetEdge := by
  simp [step, State.clockEdge, h]

/-- An edge with a handshake runs the selected operation. -/
theorem step_handshake {s : State} (hb : s.booted = true) (h : s.handshake = true) :
    step s = exec (s.instrFor s.inputPins.inData) s.tick := by
  obtain ⟨hr, -, hv⟩ := (handshake_iff s).1 h
  simp [step, State.clockEdge, State.runEdge, hr, hb, hv, h]

/-- A placed word is run by the next edge: `step` runs the instruction `decodeTableWord` reads (log entry 8). -/
theorem step_withFetchWord (s : State) (nbits w : Nat) (i : Instr) (h : decodeTableWord nbits w = some i) :
    step (s.withFetchWord nbits w) = exec i (s.withFetchWord nbits w).tick := by
  unfold decodeTableWord decode at h
  by_cases hw : w % 2 ^ nbits < 2048
  · simp only [hw, ↓reduceIte, Option.some.injEq] at h
    have hs : (s.withFetchWord nbits w).handshake = true := by
      simp [handshake_iff, State.withFetchWord, State.placeWord, State.inputPins, Pins.offer, Pins.quiet]
    rw [step_handshake rfl hs]
    congr 1
    rw [← h, instrFor_eq, select]
    have hb : (s.withFetchWord nbits w).inputPins.inData = wordByte (BitVec.ofNat 11 (w % 2 ^ nbits)) := rfl
    have ho : wordOvf (BitVec.ofNat 11 (w % 2 ^ nbits)) = (w % 2 ^ nbits).testBit 10 := by
      rw [wordOvf, BitVec.getLsbD_ofNat]; rfl
    rw [hb, State.withFetchWord, State.placeWord, ← ho]
    cases hp : wordPhase (BitVec.ofNat 11 (w % 2 ^ nbits)) <;> 
      simp [selectOp, Decoder.side, tableSide, selectPay, Side.last]
    cases wordOvf (BitVec.ofNat 11 (w % 2 ^ nbits)) <;> simp
  · simp [hw] at h

end Sys2Proof.Machine
end

