-- ==== Sys2Proof/Laws/Stream.lean ====
section
/-! SUPPORT. STEP of each operation, exec beside another decoder, and folding STEP over a stream. -/

namespace Sys2Proof.Machine

/-- What an operation does depends on the parameters and the decoder alone: beside any other pins, edge number, boot mark
and event register it makes the same decoder, and either loads the same event or leaves the register. -/
theorem exec_relocate (i : Instr) (s : State) :
    exec i s =
      match exec i (State.atDecoder s.params s.dec) with
      | .next t    => .next { s with dec := t.dec, ev := if t.ev.valid then t.ev else s.ev }
      | .fault f   => .fault f
      | .refused r => .refused r := by
  cases i with
  | payStore b =>
    by_cases h : s.dec.cnt.toNat < s.params.lenMax.toNat
    · simp [exec, execPayStore, storePayload_ok, storePayload_atDecoder_ok, h, commit_eq]
    · simp [exec, execPayStore, storePayload_error, h]
  | payEndFrame b =>
    by_cases h : s.dec.cnt.toNat < s.params.lenMax.toNat
    · simp [exec, execPayEndFrame, storePayload_ok, storePayload_atDecoder_ok, h, commit_eq]
    · simp [exec, execPayEndFrame, storePayload_error, h]
  | payEndBadcs b =>
    by_cases h : s.dec.cnt.toNat < s.params.lenMax.toNat
    · simp [exec, execPayEndBadcs, storePayload_ok, storePayload_atDecoder_ok, h, commit_eq, rejectFrame_eq]
    · simp [exec, execPayEndBadcs, storePayload_error, h]
  | st3 o b =>
    by_cases h : b = s.params.startMarker
    · simp [exec, execSt3, h, beginFrame_eq, commit_eq]
    · simp [exec, execSt3, h, commit_eq]
  | idleSom o b => simp [exec, execIdleSom, beginFrame_eq, commit_eq]
  | idleAscii o b => simp [exec, execIdleAscii, commit_eq]
  | lenZero o => simp [exec, execLenZero, rejectFrame_eq, commit_eq]
  | lenOvf o b => simp [exec, execLenOvf, commit_eq]
  | lenOk o b => simp [exec, execLenOk, commit_eq]
  | payDiscard b => simp [exec, execPayDiscard, commit_eq]
  | payEndOvf b => simp [exec, execPayEndOvf, rejectFrame_eq, commit_eq]

/-- STEP in terms of the selected operation. -/
theorem byteStep_of_commit (P : Params) (d d' : Decoder) (b c : Byte) (e : Event)
    (h : exec ((State.atDecoder P d).instrFor b) (State.atDecoder P d) = (State.atDecoder P d).commit c d' e)
    (he : ∀ x, e = .ascii x → x = c) : byteStep P d b = .next (d', e) := by
  simp only [byteStep, h, commit_eq]
  rw [event_load _ c e rfl he]

/-! STEP in each state. -/

theorem byteStep_idle_marker (P : Params) (d : Decoder) (h : d.st = .idle) :
    byteStep P d P.startMarker = .next ({ d with som := P.startMarker, acc := 0#8, st := .waitLen }, .none) :=
  byteStep_of_commit P d _ _ P.startMarker _ (by simp [instrFor_eq, h, selectOp, selectIdle, exec, execIdleSom, beginFrame_eq])
    (by simp)

theorem byteStep_idle_other (P : Params) (d : Decoder) (b : Byte) (h : d.st = .idle) (hb : b ≠ P.startMarker) :
    byteStep P d b = .next (d, .ascii b) :=
  byteStep_of_commit P d _ _ b _ (by simp [instrFor_eq, h, selectOp, selectIdle, exec, execIdleAscii, hb])
    (by simp)

theorem byteStep_len_zero (P : Params) (d : Decoder) (h : d.st = .waitLen) :
    byteStep P d 0#8 = .next ({ d.takeLength 0#8 false with st := .idle }, .nack .lenZero) :=
  byteStep_of_commit P d _ _ 0#8 _ (by simp [instrFor_eq, h, selectOp, selectLen, exec, execLenZero, rejectFrame_eq])
    (by simp)

theorem byteStep_len_over (P : Params) (d : Decoder) (b : Byte) (h : d.st = .waitLen)
    (hb : P.lenMax.toNat < b.toNat) :
    byteStep P d b = .next ({ d.takeLength b true with st := .waitPayload }, .none) := by
  have h0 : b ≠ 0#8 := by rintro rfl; simp at hb
  have hlt : P.lenMax < b := BitVec.lt_def.2 hb
  exact byteStep_of_commit P d _ _ b _ (by simp [instrFor_eq, h, selectOp, selectLen, h0, hlt, exec, execLenOvf]) (by simp)

theorem byteStep_len_ok (P : Params) (d : Decoder) (b : Byte) (h : d.st = .waitLen) (h1 : 1 ≤ b.toNat)
    (hb : b.toNat ≤ P.lenMax.toNat) :
    byteStep P d b = .next ({ d.takeLength b false with st := .waitPayload }, .none) := by
  have h0 : b ≠ 0#8 := by rintro rfl; simp at h1
  have hlt : ¬ P.lenMax < b := by rw [BitVec.lt_def]; omega
  exact byteStep_of_commit P d _ _ b _ (by simp [instrFor_eq, h, selectOp, selectLen, h0, hlt, exec, execLenOk]) (by simp)

theorem byteStep_pay_store (P : Params) (d : Decoder) (b : Byte) (h : d.st = .waitPayload) (ho : d.ovf = false)
    (hc : d.cnt.toNat + 1 ≠ d.len.toNat) (hr : d.cnt.toNat < P.lenMax.toNat) :
    byteStep P d b =
      .next (Decoder.takePayload { d with buf := Memory.write d.buf d.cnt.toNat b } b, .none) :=
  byteStep_of_commit P d _ _ b _
    (by simp [instrFor_eq, h, ho, selectOp, selectPay, Side.last, Decoder.side, hc, exec, execPayStore, storePayload_atDecoder_ok, hr])
    (by simp)

theorem byteStep_pay_discard (P : Params) (d : Decoder) (b : Byte) (h : d.st = .waitPayload) (ho : d.ovf = true)
    (hc : d.cnt.toNat + 1 ≠ d.len.toNat) : byteStep P d b = .next (d.takePayload b, .none) :=
  byteStep_of_commit P d _ _ b _
    (by simp [instrFor_eq, h, ho, selectOp, selectPay, Side.last, Decoder.side, hc, exec, execPayDiscard]) (by simp)

theorem byteStep_end_frame (P : Params) (d : Decoder) (b : Byte) (h : d.st = .waitPayload) (ho : d.ovf = false)
    (hc : d.cnt.toNat + 1 = d.len.toNat) (hr : d.cnt.toNat < P.lenMax.toNat) (ha : d.acc + b = 0#8) :
    byteStep P d b =
      .next ({ Decoder.takePayload { d with buf := Memory.write d.buf d.cnt.toNat b } b with st := .idle }, .frame) :=
  byteStep_of_commit P d _ _ b _
    (by simp [instrFor_eq, h, ho, selectOp, selectPay, Side.last, Side.zeroWith, Decoder.side, hc, ha, exec,
      execPayEndFrame, storePayload_atDecoder_ok, hr])
    (by simp)

theorem byteStep_end_badcs (P : Params) (d : Decoder) (b : Byte) (h : d.st = .waitPayload) (ho : d.ovf = false)
    (hc : d.cnt.toNat + 1 = d.len.toNat) (hr : d.cnt.toNat < P.lenMax.toNat) (ha : d.acc + b ≠ 0#8) :
    byteStep P d b =
      .next ({ Decoder.takePayload { d with buf := Memory.write d.buf d.cnt.toNat b } b with st := .idle },
        .nack .checksum) :=
  byteStep_of_commit P d _ _ b _
    (by simp [instrFor_eq, h, ho, selectOp, selectPay, Side.last, Side.zeroWith, Decoder.side, hc, ha, exec,
      execPayEndBadcs, storePayload_atDecoder_ok, hr, rejectFrame_eq])
    (by simp)

theorem byteStep_end_over (P : Params) (d : Decoder) (b : Byte) (h : d.st = .waitPayload) (ho : d.ovf = true)
    (hc : d.cnt.toNat + 1 = d.len.toNat) :
    byteStep P d b = .next ({ d.takePayload b with st := .idle }, .nack .lenOverflow) :=
  byteStep_of_commit P d _ _ b _
    (by simp [instrFor_eq, h, ho, selectOp, selectPay, Side.last, Decoder.side, hc, exec, execPayEndOvf, rejectFrame_eq])
    (by simp)

theorem byteStep_store_outside (P : Params) (d : Decoder) (b : Byte) (h : d.st = .waitPayload) (ho : d.ovf = false)
    (hr : ¬ d.cnt.toNat < P.lenMax.toNat) : byteStep P d b = .fault (.bufferRange d.cnt.toNat) := by
  by_cases hc : d.cnt.toNat + 1 = d.len.toNat <;> by_cases ha : d.acc + b = 0#8 <;>
    simp [byteStep, instrFor_eq, h, ho, selectOp, selectPay, Side.last, Side.zeroWith, Decoder.side, hc, ha, exec,
      execPayStore, execPayEndFrame, execPayEndBadcs, storePayload_error, hr]

theorem byteStep_unused_marker (P : Params) (d : Decoder) (h : d.st = .unused) :
    byteStep P d P.startMarker = .next ({ d with som := P.startMarker, acc := 0#8, st := .waitLen }, .none) :=
  byteStep_of_commit P d _ _ P.startMarker _ (by simp [instrFor_eq, h, selectOp, exec, execSt3, beginFrame_eq]) (by simp)

theorem byteStep_unused_other (P : Params) (d : Decoder) (b : Byte) (h : d.st = .unused) (hb : b ≠ P.startMarker) :
    byteStep P d b = .next ({ d with st := .idle }, .ascii b) :=
  byteStep_of_commit P d _ _ b _ (by simp [instrFor_eq, h, selectOp, exec, execSt3, hb]) (by simp)

/-! The cycle level in terms of STEP. -/

/-- A step on `b` ends with some decoder and an event on `b`, or it faults. -/
theorem exec_commits (s : State) (b : Byte) :
    (∃ d e, exec (s.instrFor b) s = s.commit b d e ∧ ∀ x, e = .ascii x → x = b) ∨
      ∃ f, exec (s.instrFor b) s = .fault f := by
  rw [instrFor_eq]
  cases hp : s.dec.st with
  | idle =>
    by_cases h : b = s.params.startMarker
    · exact .inl ⟨_, .none, by simp only [selectOp, selectIdle, h, ↓reduceIte]; rfl, by simp⟩
    · exact .inl ⟨_, .ascii b, by simp only [selectOp, selectIdle, h, ↓reduceIte]; rfl, by simp⟩
  | waitLen =>
    by_cases h : b = 0#8
    · exact .inl ⟨_, .nack .lenZero, by simp only [selectOp, selectLen, h, ↓reduceIte]; rfl, by simp⟩
    · by_cases h' : s.params.lenMax < b
      · exact .inl ⟨_, .none, by simp only [selectOp, selectLen, h, h', ↓reduceIte]; rfl, by simp⟩
      · exact .inl ⟨_, .none, by simp only [selectOp, selectLen, h, h', ↓reduceIte]; rfl, by simp⟩
  | waitPayload =>
    cases hov : s.dec.ovf
    · by_cases hr : s.dec.cnt.toNat < s.params.lenMax.toNat
      · refine .inl ?_
        cases hl : s.dec.side.last
        · exact ⟨_, .none, by simp only [selectOp, selectPay, hl, exec, execPayStore, storePayload_ok s b hr,
            Bool.false_eq_true, ↓reduceIte]; rfl, by simp⟩
        · cases hz : s.dec.side.zeroWith b
          · exact ⟨_, .nack .checksum, by simp only [selectOp, selectPay, hl, hz, exec, execPayEndBadcs,
              storePayload_ok s b hr, Bool.false_eq_true, ↓reduceIte]; rfl, by simp⟩
          · exact ⟨_, .frame, by simp only [selectOp, selectPay, hl, hz, exec, execPayEndFrame,
              storePayload_ok s b hr, Bool.false_eq_true, ↓reduceIte]; rfl, by simp⟩
      · refine .inr ⟨.bufferRange s.dec.cnt.toNat, ?_⟩
        cases hl : s.dec.side.last <;> cases hz : s.dec.side.zeroWith b <;>
          simp [selectOp, selectPay, hl, hz, exec, execPayStore, execPayEndFrame, execPayEndBadcs,
            storePayload_error s b hr]
    · refine .inl ?_
      cases hl : s.dec.side.last
      · exact ⟨_, .none, by simp only [selectOp, selectPay, hl, Bool.false_eq_true, ↓reduceIte]; rfl, by simp⟩
      · exact ⟨_, .nack .lenOverflow, by simp only [selectOp, selectPay, hl, ↓reduceIte]; rfl, by simp⟩
  | unused =>
    by_cases h : b = s.params.startMarker
    · exact .inl ⟨_, .none, by simp only [selectOp, exec, execSt3, h, ↓reduceIte]; rfl, by simp⟩
    · exact .inl ⟨_, .ascii b, by simp only [selectOp, exec, execSt3, h, ↓reduceIte]; rfl, by simp⟩

/-- Where STEP answers a decoder and an event, the cycle level takes the same decoder and loads the same event. -/
theorem exec_of_byteStep {s : State} {b : Byte} {d : Decoder} {e : Event}
    (h : byteStep s.params s.dec b = .next (d, e)) : exec (s.instrFor b) s = s.commit b d e := by
  have hi : (State.atDecoder s.params s.dec).instrFor b = s.instrFor b := by simp [instrFor_eq]
  rw [exec_relocate]
  rcases exec_commits (State.atDecoder s.params s.dec) b with ⟨d', e', hc, he⟩ | ⟨f, hf⟩
  · rw [byteStep_of_commit _ _ _ _ _ _ hc he] at h
    cases h
    rw [hi] at hc
    rw [hc]
    cases e <;> simp [commit_eq]
  · simp [byteStep, hf] at h

/-- Where STEP faults, the cycle level faults. -/
theorem exec_of_byteStep_fault {s : State} {b : Byte} {f : Fault}
    (h : byteStep s.params s.dec b = .fault f) : exec (s.instrFor b) s = .fault f := by
  have hi : (State.atDecoder s.params s.dec).instrFor b = s.instrFor b := by simp [instrFor_eq]
  rw [exec_relocate]
  rcases exec_commits (State.atDecoder s.params s.dec) b with ⟨d', e', hc, he⟩ | ⟨f', hf⟩
  · rw [byteStep_of_commit _ _ _ _ _ _ hc he] at h
    cases h
  · rw [byteStep, hf] at h
    cases h
    rw [hi] at hf
    rw [hf]

/-- STEP answers or faults; it never refuses. -/
theorem byteStep_next_or_fault (P : Params) (d : Decoder) (b : Byte) :
    (∃ d' e, byteStep P d b = .next (d', e)) ∨ ∃ f, byteStep P d b = .fault f := by
  rcases exec_commits (State.atDecoder P d) b with ⟨d', e', hc, he⟩ | ⟨f', hf⟩
  · exact .inl ⟨d', e', byteStep_of_commit _ _ _ _ _ _ hc he⟩
  · exact .inr ⟨f', by rw [byteStep, hf]⟩

/-- And back: what the cycle level takes is what STEP answers. -/
theorem byteStep_of_exec {s t : State} {b : Byte} (h : exec (s.instrFor b) s = .next t) :
    ∃ d e, byteStep s.params s.dec b = .next (d, e) ∧ t = { s with dec := d, ev := s.ev.load b e } := by
  rcases byteStep_next_or_fault s.params s.dec b with ⟨d, e, hd⟩ | ⟨f, hf⟩
  · rw [exec_of_byteStep hd, commit_eq] at h
    cases h
    exact ⟨d, e, hd, rfl⟩
  · rw [exec_of_byteStep_fault hf] at h
    cases h

/-- Everything STEP can answer: one case for each operation (R63 to R73). -/
theorem byteStep_cases {P : Params} {d d' : Decoder} {b : Byte} {e : Event} (h : byteStep P d b = .next (d', e)) :
    ((d.st = .idle ∨ d.st = .unused) ∧ b = P.startMarker ∧
      d' = { d with som := b, acc := 0#8, st := .waitLen } ∧ e = .none) ∨
    ((d.st = .idle ∨ d.st = .unused) ∧ b ≠ P.startMarker ∧ d' = { d with st := .idle } ∧ e = .ascii b) ∨
    (d.st = .waitLen ∧ b = 0#8 ∧ d' = { d.takeLength 0#8 false with st := .idle } ∧ e = .nack .lenZero) ∨
    (d.st = .waitLen ∧ P.lenMax.toNat < b.toNat ∧ d' = { d.takeLength b true with st := .waitPayload } ∧ e = .none) ∨
    (d.st = .waitLen ∧ 1 ≤ b.toNat ∧ b.toNat ≤ P.lenMax.toNat ∧
      d' = { d.takeLength b false with st := .waitPayload } ∧ e = .none) ∨
    (d.st = .waitPayload ∧ d.ovf = false ∧ d.cnt.toNat + 1 ≠ d.len.toNat ∧ d.cnt.toNat < P.lenMax.toNat ∧
      d' = Decoder.takePayload { d with buf := Memory.write d.buf d.cnt.toNat b } b ∧ e = .none) ∨
    (d.st = .waitPayload ∧ d.ovf = true ∧ d.cnt.toNat + 1 ≠ d.len.toNat ∧ d' = d.takePayload b ∧ e = .none) ∨
    (d.st = .waitPayload ∧ d.ovf = false ∧ d.cnt.toNat + 1 = d.len.toNat ∧ d.cnt.toNat < P.lenMax.toNat ∧
      d.acc + b = 0#8 ∧
      d' = { Decoder.takePayload { d with buf := Memory.write d.buf d.cnt.toNat b } b with st := .idle } ∧ e = .frame) ∨
    (d.st = .waitPayload ∧ d.ovf = false ∧ d.cnt.toNat + 1 = d.len.toNat ∧ d.cnt.toNat < P.lenMax.toNat ∧
      d.acc + b ≠ 0#8 ∧
      d' = { Decoder.takePayload { d with buf := Memory.write d.buf d.cnt.toNat b } b with st := .idle } ∧
      e = .nack .checksum) ∨
    (d.st = .waitPayload ∧ d.ovf = true ∧ d.cnt.toNat + 1 = d.len.toNat ∧
      d' = { d.takePayload b with st := .idle } ∧ e = .nack .lenOverflow) := by
  cases hp : d.st with
  | idle =>
    by_cases hb : b = P.startMarker
    · subst hb; rw [byteStep_idle_marker P d hp] at h; cases h; simp
    · rw [byteStep_idle_other P d b hp hb] at h; cases h; simp [hb, ← hp]
  | unused =>
    by_cases hb : b = P.startMarker
    · subst hb; rw [byteStep_unused_marker P d hp] at h; cases h; simp
    · rw [byteStep_unused_other P d b hp hb] at h; cases h; simp [hb]
  | waitLen =>
    by_cases h0 : b = 0#8
    · subst h0; rw [byteStep_len_zero P d hp] at h; cases h; simp
    · have h1 : 1 ≤ b.toNat := by
        rcases Nat.eq_zero_or_pos b.toNat with h' | h'
        · exact absurd (BitVec.eq_of_toNat_eq (by simpa using h')) h0
        · exact h'
      by_cases hl : P.lenMax.toNat < b.toNat
      · rw [byteStep_len_over P d b hp hl] at h; cases h; simp [hl, h0]
      · rw [byteStep_len_ok P d b hp h1 (by omega)] at h; cases h; simp [h0, h1]; omega
  | waitPayload =>
    cases ho : d.ovf
    · by_cases hr : d.cnt.toNat < P.lenMax.toNat
      · by_cases hc : d.cnt.toNat + 1 = d.len.toNat
        · by_cases ha : d.acc + b = 0#8
          · rw [byteStep_end_frame P d b hp ho hc hr ha] at h; cases h; simp [hc, hr, ha, ho]
          · rw [byteStep_end_badcs P d b hp ho hc hr ha] at h; cases h; simp [hc, hr, ha, ho]
        · rw [byteStep_pay_store P d b hp ho hc hr] at h; cases h; simp [hc, hr, hp, ho]
      · rw [byteStep_store_outside P d b hp ho hr] at h; cases h
    · by_cases hc : d.cnt.toNat + 1 = d.len.toNat
      · rw [byteStep_end_over P d b hp ho hc] at h; cases h; simp [hc]
      · rw [byteStep_pay_discard P d b hp ho hc] at h; cases h; simp [hc]

/-! Folding. -/

@[simp] theorem feed_nil (P : Params) (d : Decoder) : feed P d [] = .next (d, []) := rfl

/-- Feeding one byte and then the rest. -/
theorem feed_cons {P : Params} {d d₁ d₂ : Decoder} {b : Byte} {bs : List Byte} {e : Event} {es : List Event}
    (h₁ : byteStep P d b = .next (d₁, e)) (h₂ : feed P d₁ bs = .next (d₂, es)) :
    feed P d (b :: bs) = .next (d₂, e :: es) := by
  simp only [feed, h₁, h₂]

/-- Feeding one byte is one step. -/
theorem feed_single {P : Params} {d d' : Decoder} {b : Byte} {e : Event} (h : byteStep P d b = .next (d', e)) :
    feed P d [b] = .next (d', [e]) := by
  exact feed_cons h rfl

/-- Feeding two streams one after the other. -/
theorem feed_append {P : Params} {d d₁ d₂ : Decoder} {x y : List Byte} {es₁ es₂ : List Event}
    (h₁ : feed P d x = .next (d₁, es₁)) (h₂ : feed P d₁ y = .next (d₂, es₂)) :
    feed P d (x ++ y) = .next (d₂, es₁ ++ es₂) := by
  induction x generalizing d es₁ with
  | nil => simp at h₁; obtain ⟨rfl, rfl⟩ := h₁; simpa using h₂
  | cons b x ih =>
    simp only [feed] at h₁
    split at h₁
    · next d' e hb =>
      split at h₁
      · next d'' es hx =>
        cases h₁
        exact feed_cons hb (ih hx)
      · cases h₁
      · cases h₁
    · cases h₁
    · cases h₁

/-- Feeding one more byte. -/
theorem feed_concat {P : Params} {d d₁ d₂ : Decoder} {x : List Byte} {b : Byte} {es : List Event} {e : Event}
    (h₁ : feed P d x = .next (d₁, es)) (h₂ : byteStep P d₁ b = .next (d₂, e)) :
    feed P d (x ++ [b]) = .next (d₂, es ++ [e]) :=
  feed_append h₁ (feed_single h₂)

end Sys2Proof.Machine
end

