-- ==== Sys2Proof/Laws/Invariant.lean ====
section
/-! SUPPORT. The arithmetic of the counter and the accumulator, and one step from a legal decoder. -/

namespace Sys2Proof.Machine

/-- The edge's own bookkeeping does not change which operation is selected. -/
theorem instrFor_tick (s : State) (b : Byte) : s.tick.instrFor b = s.instrFor b := by simp [instrFor_eq]

theorem one_le_of_ne_zero (b : Byte) (h : b ≠ 0#8) : 1 ≤ b.toNat := by
  rcases Nat.eq_zero_or_pos b.toNat with h' | h'
  · exact absurd (BitVec.eq_of_toNat_eq (by simpa using h')) h
  · exact h'

/-- R12: below `len` the counter does not wrap. -/
theorem toNat_count (c l : Byte) (h : c.toNat < l.toNat) : (c + 1#8).toNat = c.toNat + 1 := by
  have := l.isLt; rw [BitVec.toNat_add]; simp; omega

/-- R45: the last payload byte brings the counter to `len`. -/
theorem count_last (c l : Byte) (h : c.toNat + 1 = l.toNat) : c + 1#8 = l := by
  apply BitVec.eq_of_toNat_eq; rw [BitVec.toNat_add]; simp; have := l.isLt; omega

/-- R59: a stored byte extends the sum the accumulator holds. -/
theorem frameSum_write (d : Decoder) (b : Byte) (n : Nat) (a : Byte) (h : d.frameSum n = some a) (d' : Decoder)
    (hb : d'.buf = Memory.write d.buf n b) (hl : d'.len = d.len) : d'.frameSum (n + 1) = some (a + b) := by
  unfold Decoder.frameSum at *
  rw [hb, hl]
  cases hf : Memory.firstBytes d.buf n with
  | none => simp [hf] at h
  | some ps =>
    rw [firstBytes_write_next _ _ _ _ hf]
    simp only [hf, Option.map_some, Option.some.injEq] at h ⊢
    rw [← h, csSum_cons, csSum_cons, csSum_concat]; grind

/-- R62: from a legal decoder STEP answers, whatever the byte. -/
theorem byteStep_of_inv (P : Params) (d : Decoder) (b : Byte) (hd : d.Inv P) :
    ∃ d' e, byteStep P d b = .next (d', e) := by
  cases hp : d.st with
  | idle =>
    by_cases hb : b = P.startMarker
    · rw [hb]; exact ⟨_, _, byteStep_idle_marker _ _ hp⟩
    · exact ⟨_, _, byteStep_idle_other _ _ _ hp hb⟩
  | unused => exact absurd hp hd.phase
  | waitLen =>
    by_cases h0 : b = 0#8
    · rw [h0]; exact ⟨_, _, byteStep_len_zero _ _ hp⟩
    · by_cases hl : P.lenMax.toNat < b.toNat
      · exact ⟨_, _, byteStep_len_over _ _ _ hp hl⟩
      · exact ⟨_, _, byteStep_len_ok _ _ _ hp (one_le_of_ne_zero _ h0) (by omega)⟩
  | waitPayload =>
    have h1 := hd.payload hp
    cases ho : d.ovf
    · have h2 := hd.stored hp ho
      have hr : d.cnt.toNat < P.lenMax.toNat := by omega
      by_cases hc : d.cnt.toNat + 1 = d.len.toNat
      · by_cases ha : d.acc + b = 0#8
        · exact ⟨_, _, byteStep_end_frame _ _ _ hp ho hc hr ha⟩
        · exact ⟨_, _, byteStep_end_badcs _ _ _ hp ho hc hr ha⟩
      · exact ⟨_, _, byteStep_pay_store _ _ _ hp ho hc hr⟩
    · by_cases hc : d.cnt.toNat + 1 = d.len.toNat
      · exact ⟨_, _, byteStep_end_over _ _ _ hp ho hc⟩
      · exact ⟨_, _, byteStep_pay_discard _ _ _ hp ho hc⟩

end Sys2Proof.Machine
end

