-- ==== Sys2Proof/Laws/Frame.lean ====
section
/-! SUPPORT. Runs of STEP: the payload bytes before the last one, the head of a frame, and the last byte of a stream. -/

namespace Sys2Proof.Machine

/-- R68, R69: payload bytes that do not end the frame are counted and folded, and stored or dropped. -/
theorem feed_payload (P : Params) (ps : List Byte) : ∀ (d : Decoder), d.st = .waitPayload →
    d.cnt.toNat + ps.length < d.len.toNat → (d.ovf = false → d.len.toNat ≤ P.lenMax.toNat) →
    ∃ d', feed P d ps = .next (d', List.replicate ps.length Event.none) ∧ d'.st = .waitPayload ∧ d'.som = d.som ∧
      d'.len = d.len ∧ d'.cnt.toNat = d.cnt.toNat + ps.length ∧ d'.acc = d.acc + csSum ps ∧ d'.ovf = d.ovf ∧
      (d.ovf = false → ∀ qs, Memory.firstBytes d.buf d.cnt.toNat = some qs →
        Memory.firstBytes d'.buf d'.cnt.toNat = some (qs ++ ps)) ∧
      (d.ovf = true → d'.buf = d.buf) ∧ (d.ovf = false → performed P d ps = ps.map Instr.payStore) := by
  induction ps with
  | nil => intro d h1 h2 h3; exact ⟨d, rfl, h1, rfl, rfl, rfl, by simp, rfl, by simp, by simp, by simp [performed]⟩
  | cons b ps ih =>
    intro d h1 h2 h3
    simp only [List.length_cons] at h2
    have hc := toNat_count d.cnt d.len (by omega)
    cases ho : d.ovf
    · have h3' := h3 ho
      have hb := byteStep_pay_store P d b h1 ho (by omega) (by omega)
      obtain ⟨d', e1, e2, e3, e4, e5, e6, e7, e8, e9, e10⟩ :=
        ih (Decoder.takePayload { d with buf := Memory.write d.buf d.cnt.toNat b } b) h1
        (by show (d.cnt + 1#8).toNat + ps.length < d.len.toNat; omega) (fun _ => h3')
      refine ⟨d', ?_, e2, e3, e4, ?_, ?_, ?_, fun _ qs hq => ?_, by simp, fun _ => ?_⟩
      · exact feed_cons hb e1
      · rw [e5, takePayload_cnt, hc]; simp; omega
      · rw [e6, csSum_cons, takePayload_acc]; grind
      · rw [e7, takePayload_ovf]; exact ho
      · have := e8 ho (qs ++ [b]) (by
          simp only [takePayload_cnt, takePayload_buf, hc]; exact firstBytes_write_next _ _ _ _ hq)
        simpa using this
      · simp only [performed, List.map_cons, hb]
        rw [e10 ho]
        congr 1
        have hne : d.cnt.toNat + 1 ≠ d.len.toNat := by clear ih e1 e2 e3 e4 e5 e6 e7 e8 e9 e10; omega
        simp [instrFor_eq, h1, ho, selectOp, selectPay, Side.last, Decoder.side, hne]
    · have hb := byteStep_pay_discard P d b h1 ho (by omega)
      obtain ⟨d', e1, e2, e3, e4, e5, e6, e7, e8, e9, e10⟩ := ih (d.takePayload b) h1
        (by simp only [takePayload_cnt, takePayload_len]; omega) (fun h => by simp [ho] at h)
      refine ⟨d', ?_, e2, e3, e4, ?_, ?_, ?_, by simp, fun _ => ?_, by simp⟩
      · exact feed_cons hb e1
      · rw [e5, takePayload_cnt, hc]; simp; omega
      · rw [e6, csSum_cons, takePayload_acc]; grind
      · rw [e7, takePayload_ovf]; exact ho
      · exact e9 ho

/-- R63, R66, R67: the start marker and a LENGTH, from IDLE. -/
theorem feed_head (P : Params) (d : Decoder) (L : Byte) (h : d.st = .idle) (hL : 1 ≤ L.toNat) :
    ∃ d', feed P d [P.startMarker, L] = .next (d', [.none, .none]) ∧ d'.st = .waitPayload ∧ d'.som = P.startMarker ∧
      d'.len = L ∧ d'.cnt = 0#8 ∧ d'.acc = L ∧ (d'.ovf = true ↔ P.lenMax.toNat < L.toNat) ∧ d'.buf = d.buf ∧
      (L.toNat ≤ P.lenMax.toNat → performed P d [P.startMarker, L] = [.idleSom d.ovf P.startMarker, .lenOk d.ovf L]) ∧
      byteStep P d P.startMarker = .next ({ d with som := P.startMarker, acc := 0#8, st := .waitLen }, .none) ∧
      byteStep P { d with som := P.startMarker, acc := 0#8, st := .waitLen } L = .next (d', .none) := by
  have h1 := byteStep_idle_marker P d h
  by_cases hl : P.lenMax.toNat < L.toNat
  · have h2 := byteStep_len_over P { d with som := P.startMarker, acc := 0#8, st := .waitLen } L rfl hl
    refine ⟨_, feed_append (feed_single h1) (feed_single h2), rfl, rfl, rfl, rfl, by simp, by simp [hl],
      rfl, fun h => by omega, h1, h2⟩
  · have h2 := byteStep_len_ok P { d with som := P.startMarker, acc := 0#8, st := .waitLen } L rfl hL (by omega)
    have h0 : L ≠ 0#8 := by rintro rfl; simp at hL
    refine ⟨_, feed_append (feed_single h1) (feed_single h2), rfl, rfl, rfl, rfl, by simp, by simp [hl],
      rfl, fun _ => ?_, h1, h2⟩
    simp only [performed, h1, h2]
    simp [instrFor_eq, h, selectOp, selectIdle, selectLen, h0, BitVec.lt_def, hl]

/-- The operations of two streams one after the other. -/
theorem performed_append {P : Params} {d d₁ : Decoder} {x y : List Byte} {es : List Event}
    (h : feed P d x = .next (d₁, es)) :
    performed P d (x ++ y) = performed P d x ++ performed P d₁ y := by
  induction x generalizing d es with
  | nil => simp at h; simp [performed, h.1]
  | cons b x ih =>
    simp only [feed] at h
    split at h
    · next d' e hb =>
      split at h
      · next d'' es' hx =>
        cases h
        simp [performed, hb, ih hx]
      · cases h
      · cases h
    · cases h
    · cases h

/-- The last byte of a stream is one step after the rest. -/
theorem feed_concat_inv {P : Params} {d d₂ : Decoder} {x : List Byte} {b : Byte} {es : List Event}
    (h : feed P d (x ++ [b]) = .next (d₂, es)) :
    ∃ d₁ es₁ e, feed P d x = .next (d₁, es₁) ∧ byteStep P d₁ b = .next (d₂, e) ∧ es = es₁ ++ [e] := by
  induction x generalizing d es with
  | nil =>
    simp only [List.nil_append, feed] at h
    split at h
    · next d' e hb => cases h; exact ⟨d, [], e, rfl, hb, rfl⟩
    · cases h
    · cases h
  | cons a x ih =>
    simp only [List.cons_append, feed] at h
    split at h
    · next d' e hb =>
      split at h
      · next d'' es' hx =>
        cases h
        obtain ⟨d₁, es₁, e', h1, h2, rfl⟩ := ih hx
        exact ⟨d₁, e :: es₁, e', feed_cons hb h1, h2, rfl⟩
      · cases h
      · cases h
    · cases h
    · cases h

end Sys2Proof.Machine
end

