-- ==== Sys2Proof/Laws/PerInstr.lean ====
section
/-! SUPPORT. Per-instruction laws: every encoding satisfies the match and the mask of its row of the opcode table. -/

namespace Sys2Proof

/-- The bits a row of the table fixes, for a packed word: every row fixes `st`, some fix `ovf` or the byte. -/
theorem packWord_and_phase (o : Bool) (p : Phase) (b : Byte) : packWord o p b &&& 0x300 = packWord false p 0 := by
  apply BitVec.eq_of_getLsbD_eq
  intro i hi
  rw [BitVec.getLsbD_and, getLsbD_packWord, getLsbD_packWord]
  interval_cases i <;> cases o <;> cases p <;> simp [phaseCode]

theorem packWord_and_ovf (o : Bool) (p : Phase) (b : Byte) : packWord o p b &&& 0x700 = packWord o p 0 := by
  apply BitVec.eq_of_getLsbD_eq
  intro i hi
  rw [BitVec.getLsbD_and, getLsbD_packWord, getLsbD_packWord]
  interval_cases i <;> cases o <;> cases p <;> simp [phaseCode]

theorem packWord_and_byte (o : Bool) (p : Phase) (b : Byte) : packWord o p b &&& 0x3FF = packWord false p b := by
  apply BitVec.eq_of_getLsbD_eq
  intro i hi
  rw [BitVec.getLsbD_and, getLsbD_packWord, getLsbD_packWord]
  interval_cases i <;> cases o <;> cases p <;> simp [phaseCode]

end Sys2Proof

namespace Sys2Proof.Laws.TableRow

/-- The word of `i` has the bits its row of spec/opcode_table.json fixes. -/
def Statement (i : Instr) : Prop := encode i &&& (tableRow i).mask = (tableRow i).pattern

theorem idleSom (o : Bool) (b : Byte) : Statement (.idleSom o b) := packWord_and_phase o .idle b
theorem idleAscii (o : Bool) (b : Byte) : Statement (.idleAscii o b) := packWord_and_phase o .idle b
theorem lenZero (o : Bool) : Statement (.lenZero o) := packWord_and_byte o .waitLen 0
theorem lenOvf (o : Bool) (b : Byte) : Statement (.lenOvf o b) := packWord_and_phase o .waitLen b
theorem lenOk (o : Bool) (b : Byte) : Statement (.lenOk o b) := packWord_and_phase o .waitLen b
theorem payStore (b : Byte) : Statement (.payStore b) := packWord_and_ovf false .waitPayload b
theorem payDiscard (b : Byte) : Statement (.payDiscard b) := packWord_and_ovf true .waitPayload b
theorem payEndFrame (b : Byte) : Statement (.payEndFrame b) := packWord_and_ovf false .waitPayload b
theorem payEndBadcs (b : Byte) : Statement (.payEndBadcs b) := packWord_and_ovf false .waitPayload b
theorem payEndOvf (b : Byte) : Statement (.payEndOvf b) := packWord_and_ovf true .waitPayload b
theorem st3 (o : Bool) (b : Byte) : Statement (.st3 o b) := packWord_and_phase o .unused b

end Sys2Proof.Laws.TableRow
end

