-- ==== Sys2Proof/Tests/Slice0.lean ====
section
/-! SUPPORT. The model's own tests, with results from 95_test_vectors.md or worked by hand from the rules, and for every
statement with hypotheses a state that meets them. -/

namespace Sys2Proof.Tests

open Sys2Proof Sys2Proof.Machine

/-! ## Helpers -/

/-- The test instantiation of 00_scope.md section 4, written out. -/
def P0 : Params := { startMarker := 0x02#8, lenMax := 0x08#8 }

/-- The state of a completed step. -/
def got {α : Type} : Host.Outcome α Fault Refusal → Option α
  | .next a    => some a
  | .fault _   => none
  | .refused _ => none

/-- A decoder written as the vectors write it: `(st, som, len, cnt, acc, ovf)` and the buffer.  A `-` of the vectors is
0xEE here: no rule may read it. -/
def idleNew : Decoder := ⟨.idle, 0xEE#8, 0xEE#8, 0xEE#8, 0xEE#8, false, []⟩

def lenNew : Decoder := ⟨.waitLen, 0x02#8, 0xEE#8, 0xEE#8, 0#8, false, []⟩

/-- A decoder inside a frame, or at its end. -/
def within (st : Phase) (len cnt acc : Byte) (ovf : Bool) (buf : Memory) : Decoder := ⟨st, 0x02#8, len, cnt, acc, ovf, buf⟩

/-- A machine with decoder `d`, nothing pending, and `ps` on its pins. -/
def quiet (d : Decoder) (ps : List Pins) : State := { State.resetWith P0 with dec := d, pins := ps }

/-- A machine with an event pending. -/
def pending (d : Decoder) (kind cause : BitVec 2) (data : Byte) (ps : List Pins) : State :=
  { quiet d ps with ev := ⟨true, kind, cause, data⟩ }

def resetPins : Pins := { Pins.quiet with rst := true, inValid := true, inData := 0x02#8 }

/-- What a test looks at after an edge: the decoder and the event register. -/
def seen (o : Host.Outcome State Fault Refusal) : Option (Decoder × EventReg) := (got o).map fun t => (t.dec, t.ev)

/-! ## WellFormed: each check refuses an ill-formed term -/

theorem test_wf_som : Instr.wellFormed P0 (.idleSom false 0x03#8) = false := by decide
theorem test_wf_ascii : Instr.wellFormed P0 (.idleAscii false 0x02#8) = false := by decide
theorem test_wf_ovf_low : Instr.wellFormed P0 (.lenOvf false 0x08#8) = false := by decide
theorem test_wf_ovf_zero : Instr.wellFormed P0 (.lenOvf false 0x00#8) = false := by decide
theorem test_wf_ok_zero : Instr.wellFormed P0 (.lenOk false 0x00#8) = false := by decide
theorem test_wf_ok_high : Instr.wellFormed P0 (.lenOk false 0x09#8) = false := by decide
theorem test_wf_accepts : (Instr.wellFormed P0 (.idleSom true 0x02#8) && Instr.wellFormed P0 (.idleAscii false 0xFF#8) &&
    Instr.wellFormed P0 (.lenOvf false 0x09#8) && Instr.wellFormed P0 (.lenOk false 0x01#8) &&
    Instr.wellFormed P0 (.lenOk false 0x08#8)) = true := by decide

/-! ## Decoding: words {ovf, st, b} written out bit by bit from R45, with the vectors' own side conditions -/

theorem test_decode_som : decode P0 ⟨0, 0, 0⟩ 0b0_00_00000010 = .ok (.idleSom false 0x02#8) := by decide
theorem test_decode_ascii : decode P0 ⟨9, 9, 0⟩ 0b1_00_01000110 = .ok (.idleAscii true 0x46#8) := by decide
theorem test_decode_zero : decode P0 ⟨0, 0, 0⟩ 0b0_01_00000000 = .ok (.lenZero false) := by decide
theorem test_decode_ovf : decode P0 ⟨0, 0, 0⟩ 0b0_01_00001001 = .ok (.lenOvf false 0x09#8) := by decide
theorem test_decode_ok : decode P0 ⟨0, 0, 0⟩ 0b0_01_00001000 = .ok (.lenOk false 0x08#8) := by decide
theorem test_decode_store : decode P0 ⟨0, 3, 3⟩ 0b0_10_00000010 = .ok (.payStore 0x02#8) := by decide
theorem test_decode_discard : decode P0 ⟨7, 9, 0x1E#8⟩ 0b1_10_00000111 = .ok (.payDiscard 0x07#8) := by decide
theorem test_decode_frame : decode P0 ⟨2, 3, 4⟩ 0b0_10_11111100 = .ok (.payEndFrame 0xFC#8) := by decide
theorem test_decode_badcs : decode P0 ⟨2, 3, 4⟩ 0b0_10_11111101 = .ok (.payEndBadcs 0xFD#8) := by decide
theorem test_decode_end_ovf : decode P0 ⟨8, 9, 0x25#8⟩ 0b1_10_11011011 = .ok (.payEndOvf 0xDB#8) := by decide
theorem test_decode_st3 : decode P0 ⟨0, 0, 0⟩ 0b1_11_01000110 = .ok (.st3 true 0x46#8) := by decide
theorem test_decode_wide : decode P0 ⟨0, 0, 0⟩ 0b1_0_00_00000010 = .error .wideWord := by decide
/-- R45: `cnt + 1` does not wrap, so a counter of 255 never ends a frame of LENGTH 0. -/
theorem test_decode_no_wrap : decode P0 ⟨255, 0, 1⟩ 0b0_10_11111111 = .ok (.payStore 0xFF#8) := by decide
/-- V25: with LEN_MAX = 255 the byte 0xFF is a LENGTH. -/
theorem test_decode_255 : decode ⟨0x02#8, 0xFF#8⟩ ⟨0, 0, 0⟩ 0x1FF = .ok (.lenOk false 0xFF#8) := by decide

theorem test_encode_words : encode (.idleSom false 0x02#8) = 0x002#11 ∧ encode (.idleAscii true 0x46#8) = 0x446#11 ∧
    encode (.lenZero false) = 0x100#11 ∧ encode (.lenOvf false 0xFF#8) = 0x1FF#11 ∧ encode (.lenOk false 0x02#8) = 0x102#11 ∧
    encode (.payStore 0x01#8) = 0x201#11 ∧ encode (.payDiscard 0x02#8) = 0x602#11 ∧ encode (.payEndFrame 0xFC#8) = 0x2FC#11 ∧
    encode (.payEndBadcs 0xFD#8) = 0x2FD#11 ∧ encode (.payEndOvf 0xDB#8) = 0x6DB#11 ∧ encode (.st3 false 0x02#8) = 0x302#11 := by
  decide

/-! ## The bare words of the opcode table (log entry 8) -/

theorem test_table_idle : decodeTableWord 16 0x000 = some (.idleAscii false 0#8) := by decide
theorem test_table_len : decodeTableWord 16 0x100 = some (.lenZero false) := by decide
theorem test_table_store : decodeTableWord 16 0x200 = some (.payStore 0#8) := by decide
theorem test_table_discard : decodeTableWord 16 0x600 = some (.payDiscard 0#8) := by decide
theorem test_table_st3 : decodeTableWord 16 0x300 = some (.st3 false 0#8) := by decide
theorem test_table_som : decodeTableWord 16 0x002 = some (.idleSom false 0x02#8) := by decide
theorem test_table_wide : decodeTableWord 16 0x1046 = none := by decide

theorem test_fetch_idle : seen (step (State.reset.withFetchWord 16 0x000)) =
    some (State.reset.dec, ⟨true, 0b01#2, 0b00#2, 0#8⟩) := by decide
theorem test_fetch_som : seen (step (State.reset.withFetchWord 16 0x002)) =
    some ({ State.reset.dec with st := .waitLen, som := 0x02#8 }, State.reset.ev) := by decide
theorem test_fetch_discard : seen (step (State.reset.withFetchWord 16 0x605)) =
    some ({ State.reset.dec with st := .waitPayload, len := 9#8, cnt := 1#8, acc := 5#8, ovf := true }, State.reset.ev) := by
  decide

/-! ## Operations: the vectors V1 to V26 -/

/-- V1, with the parts `len` and `cnt` that R63 leaves alone. -/
theorem test_v1 : got (byteStep P0 idleNew 0x02#8) = some ({ idleNew with st := .waitLen, som := 0x02#8, acc := 0#8 }, .none) := by
  decide
/-- R63: `ovf` is left. -/
theorem test_som_keeps_ovf : got (byteStep P0 (within .idle 9 9 0 true []) 0x02#8) =
    some (within .waitLen 9 9 0 true [], .none) := by decide
theorem test_v3 : got (byteStep P0 idleNew 0x00#8) = some (idleNew, .ascii 0x00#8) := by decide
theorem test_v5 : got (byteStep P0 (within .idle 9 9 0 true []) 0x46#8) = some (within .idle 9 9 0 true [], .ascii 0x46#8) := by
  decide
theorem test_v6 : got (byteStep P0 lenNew 0x00#8) = some (within .idle 0 0 0 false [], .nack .lenZero) := by decide
/-- R65 clears `ovf` left by an oversized frame. -/
theorem test_zero_clears_ovf : got (byteStep P0 { lenNew with ovf := true } 0x00#8) =
    some (within .idle 0 0 0 false [], .nack .lenZero) := by decide
theorem test_v8 : got (byteStep P0 lenNew 0x08#8) = some (within .waitPayload 8 0 8 false [], .none) := by decide
theorem test_v9 : got (byteStep P0 lenNew 0x02#8) = some (within .waitPayload 2 0 2 false [], .none) := by decide
theorem test_v10 : got (byteStep P0 lenNew 0x09#8) = some (within .waitPayload 9 0 9 true [], .none) := by decide
theorem test_v11 : got (byteStep P0 lenNew 0xFF#8) = some (within .waitPayload 0xFF#8 0 0xFF#8 true [], .none) := by decide
theorem test_v13 : got (byteStep P0 (within .waitPayload 3 0 3 false []) 0x02#8) =
    some (within .waitPayload 3 1 5 false [(0, 0x02#8)], .none) := by decide
theorem test_v14 : got (byteStep P0 (within .waitPayload 3 0 3 false [(0, 0xFC#8), (2, 0x7#8)]) 0xFF#8) =
    some (within .waitPayload 3 1 2 false [(0, 0xFF#8), (2, 0x7#8)], .none) := by decide
theorem test_v15 : got (byteStep P0 (within .waitPayload 9 2 0x0A#8 true [(0, 1#8)]) 0x02#8) =
    some (within .waitPayload 9 3 0x0C#8 true [(0, 1#8)], .none) := by decide
theorem test_v16 : got (byteStep P0 (within .waitPayload 9 7 0x1E#8 true []) 0x07#8) =
    some (within .waitPayload 9 8 0x25#8 true [], .none) := by decide
theorem test_v17 : got (byteStep P0 (within .waitPayload 3 2 4 false [(0, 1#8), (1, 0#8)]) 0xFC#8) =
    some (within .idle 3 3 0 false [(0, 1#8), (1, 0#8), (2, 0xFC#8)], .frame) := by decide
theorem test_v18 : got (byteStep P0 (within .waitPayload 1 0 1 false []) 0xFF#8) =
    some (within .idle 1 1 0 false [(0, 0xFF#8)], .frame) := by decide
theorem test_v19 : got (byteStep P0 (within .waitPayload 3 2 4 false [(0, 1#8), (1, 0#8)]) 0xFD#8) =
    some (within .idle 3 3 1 false [(0, 1#8), (1, 0#8), (2, 0xFD#8)], .nack .checksum) := by decide
theorem test_v20 : got (byteStep P0 (within .waitPayload 1 0 1 false []) 0x00#8) =
    some (within .idle 1 1 1 false [(0, 0#8)], .nack .checksum) := by decide
theorem test_v21 : got (byteStep P0 (within .waitPayload 9 8 0x25#8 true []) 0x08#8) =
    some (within .idle 9 9 0x2D#8 true [], .nack .lenOverflow) := by decide
theorem test_v22 : got (byteStep P0 (within .waitPayload 9 8 0x25#8 true [(0, 5#8)]) 0xDB#8) =
    some (within .idle 9 9 0 true [(0, 5#8)], .nack .lenOverflow) := by decide
theorem test_v23 : got (byteStep P0 (within .unused 3 1 7 true [(0, 5#8)]) 0x46#8) =
    some (within .idle 3 1 7 true [(0, 5#8)], .ascii 0x46#8) := by decide
theorem test_v24 : got (byteStep P0 ⟨.unused, 0x77#8, 3, 1, 7, true, []⟩ 0x02#8) =
    some (within .waitLen 3 1 0 true [], .none) := by decide
theorem test_v25 : got (byteStep ⟨0x02#8, 0xFF#8⟩ lenNew 0xFF#8) = some (within .waitPayload 0xFF#8 0 0xFF#8 false [], .none) := by
  decide
theorem test_v26 : (got (feed ⟨0x00#8, 0x08#8⟩ idleNew [0x00#8, 0x00#8])).map (fun r => (r.1.st, r.2)) =
    some (.idle, [.none, .nack .lenZero]) := by decide

/-! ## Checksum vectors (95_test_vectors.md section 2) -/

theorem test_k3 : csSum [0xFF#8, 0x01#8] = 0x00#8 := by decide
theorem test_k5 : csGen [0x03#8, 0x01#8, 0x00#8] = 0xFC#8 := by decide
theorem test_k6 : csGen [0x07#8, 0x01#8, 0x00#8, 0x01#8, 0x00#8, 0x00#8, 0x00#8] = 0xF7#8 := by decide
theorem test_k8 : csGen [0x80#8] = 0x80#8 := by decide
theorem test_k9 : csGen [0xFF#8, 0xFF#8] = 0x02#8 := by decide
theorem test_k15 : csValid [0x03#8, 0x01#8, 0x00#8, 0x04#8] = false := by decide
theorem test_k17 : csValid [0x03#8, 0x02#8, 0xFF#8, 0xFC#8] = true := by decide
/-- The two values given after the table in section 2. -/
theorem test_sub : csSub [0x03#8, 0x01#8, 0x00#8, 0xFC#8] = 0x00#8 ∧ csSub [0x03#8, 0x01#8, 0x00#8, 0xFD#8] = 0xFF#8 := by decide

/-! ## Wire frames: the source's request and response (95_test_vectors.md section 1.1) -/

theorem test_request : readRequest P0 ⟨1, 0, 0, 0, 0, 0⟩ 0x00#8 = [0x02#8, 0x03#8, 0x01#8, 0x00#8, 0xFC#8] := by decide
theorem test_response : readResponse P0 ⟨1, 0, 0, 0, 0, 0⟩ 0x00#8 [1#8, 0#8, 0#8, 0#8] =
    [0x02#8, 0x07#8, 0x01#8, 0x00#8, 0x01#8, 0x00#8, 0x00#8, 0x00#8, 0xF7#8] := by decide
/-- P3's illustration: with CMD_NACK = 0x03 the NACK frame is `02,02,03,FB`. -/
theorem test_nack_frame : nackFrame P0 ⟨1, 0, 0, 3, 0, 0⟩ = [0x02#8, 0x02#8, 0x03#8, 0xFB#8] := by decide

/-! ## The wrapper: W1 to W8 -/

theorem test_w1 : (got (step (quiet idleNew [resetPins]))).map (fun t => (t.dec.st, t.dec.ovf, t.ev.valid)) =
    some (.idle, false, false) := rfl
theorem test_w2 : (got (step (quiet (within .waitPayload 9 3 0x0C#8 true []) [resetPins]))).map
    (fun t => (t.dec.st, t.dec.ovf, t.ev.valid)) = some (.idle, false, false) := rfl
theorem test_w3 : (got (step (pending idleNew 0b10#2 0b00#2 0xFC#8 [resetPins]))).map (fun t => t.ev.valid) = some false := rfl
theorem test_w4 : seen (step (pending idleNew 0b01#2 0b00#2 0x46#8 [Pins.offer 0x02#8])) =
    some (idleNew, ⟨true, 0b01#2, 0b00#2, 0x46#8⟩) := by decide
theorem test_w5 : seen (step (pending idleNew 0b01#2 0b00#2 0x46#8 [{ Pins.offer 0x02#8 with evReady := true }])) =
    some (idleNew, ⟨false, 0b01#2, 0b00#2, 0x46#8⟩) := by decide
theorem test_w6 : seen (step (quiet lenNew [Pins.quiet])) = some (lenNew, State.reset.ev) := by decide
theorem test_w7 : seen (step (quiet idleNew [Pins.offer 0x46#8])) = some (idleNew, ⟨true, 0b01#2, 0b00#2, 0x46#8⟩) := by decide
theorem test_w8 : seen (step (quiet lenNew [Pins.offer 0x03#8])) = some (within .waitPayload 3 0 3 false [], State.reset.ev) := by
  decide
/-- V19's codes on the event register: NACK with cause 01 and the last byte. -/
theorem test_nack_codes : (seen (step (quiet (within .waitPayload 3 2 4 false [(0, 1#8), (1, 0#8)]) [Pins.offer 0xFD#8]))).map
    (·.2) = some ⟨true, 0b11#2, 0b01#2, 0xFD#8⟩ := by decide
/-- X2: before the first reset edge no rule applies. -/
theorem test_before_reset : step { quiet idleNew [] with booted := false } = .refused .beforeFirstReset := rfl
/-- X5: the reserved kind. -/
theorem test_reserved : step (pending idleNew 0b00#2 0b00#2 0#8 []) = .fault .reservedEventKind := rfl

/-- P5, edges 5 and 6: what the consumer reads while the frame `02,02,01,FD` is pending. -/
theorem test_p5_read : (pending (within .idle 2 2 0 false [(0, 1#8), (1, 0xFD#8)]) 0b10#2 0b00#2 0xFD#8 []).rdData 0#8 = 0x01#8 ∧
    (pending (within .idle 2 2 0 false [(0, 1#8), (1, 0xFD#8)]) 0b10#2 0b00#2 0xFD#8 []).rdData 1#8 = 0xFD#8 ∧
    (pending (within .idle 2 2 0 false [(0, 1#8), (1, 0xFD#8)]) 0b10#2 0b00#2 0xFD#8 []).frameLen = 0x02#8 := by decide
/-- D21: past the frame the read port shows a free value. -/
theorem test_read_past_end :
    (pending (within .idle 2 2 0 false [(0, 1#8), (1, 0xFD#8)]) 0b10#2 0b00#2 0xFD#8 []).rdData 2#8 = Config.openRdData 0 2#8 := rfl

/-- P5, edge 5: the pins while the FRAME is held and the consumer reads cell 0. -/
theorem test_p5_pins : (pending (within .idle 2 2 0 false [(0, 1#8), (1, 0xFD#8)]) 0b10#2 0b00#2 0xFD#8 []).outputs
    (Pins.offer 0x46#8) = ⟨false, true, 0b10#2, 0b00#2, 0xFD#8, 0x02#8, 0x02#8, 0x01#8⟩ := by decide
/-- V19 on the pins: kind and cause of a pending NACK(CHECKSUM) are different codes. -/
theorem test_nack_pins :
    ((pending (within .idle 3 3 1 false []) 0b11#2 0b01#2 0xFD#8 []).outputs Pins.quiet).evKind = 0b11#2 ∧
    ((pending (within .idle 3 3 1 false []) 0b11#2 0b01#2 0xFD#8 []).outputs Pins.quiet).evCause = 0b01#2 := by decide
/-- R93, X2: before the first reset edge the pins show free values (log entry 14). -/
theorem test_pins_before_reset :
    (({ pending idleNew 0b10#2 0b00#2 0#8 [] with booted := false } : State).outputs Pins.quiet).evValid =
      Config.openEvValid 0 ∧
    (({ pending idleNew 0b10#2 0b00#2 0#8 [] with booted := false } : State).outputs Pins.quiet).frameSom =
      Config.openFrameSom 0 := ⟨rfl, rfl⟩

/-! ## Witnesses: for every statement with hypotheses, data that meet all of them together -/

/-- A byte is offered, whatever the state. -/
def offered (d : Decoder) (b : Byte) : State := quiet d [Pins.offer b]

/-! Legal states. -/

/-- P1 after byte 4: inside a frame. -/
def inFrame : Decoder := within .waitPayload 3 2 4 false [(0, 1#8), (1, 0#8)]

/-- P3 after byte 5: inside an oversized frame. -/
def inOversized : Decoder := within .waitPayload 9 3 0x0C#8 true []

/-- P1 after byte 5: the frame is complete. -/
def framed : Decoder := within .idle 3 3 0 false [(0, 1#8), (1, 0#8), (2, 0xFC#8)]

theorem inv_idle : idleNew.Inv P0 := by constructor <;> decide
theorem inv_len : lenNew.Inv P0 := by constructor <;> decide
theorem inv_inFrame : inFrame.Inv P0 := by constructor <;> decide
theorem inv_inOversized : inOversized.Inv P0 := by constructor <;> decide
theorem inv_framed : framed.Inv P0 := by constructor <;> decide
/-- LEN_MAX bytes stored but one: the last index below the capacity. -/
theorem inv_full : (within .waitPayload 8 7 0x24#8 false
    [(0, 1#8), (1, 2#8), (2, 3#8), (3, 4#8), (4, 5#8), (5, 6#8), (6, 7#8)]).Inv P0 := by constructor <;> decide

theorem legal_P0 : P0.legal = true := by decide

theorem event_framed : EventInv P0 framed ⟨true, 0b10#2, 0b00#2, 0xFC#8⟩ := by constructor <;> decide

theorem inv_quiet (d : Decoder) (ps : List Pins) (h : d.Inv P0) : (quiet d ps).Inv :=
  ⟨rfl, legal_P0, h, by constructor <;> simp [quiet, State.resetWith]⟩

def pendingFrame (ps : List Pins) : State := pending framed 0b10#2 0b00#2 0xFC#8 ps

theorem inv_pendingFrame (ps : List Pins) : (pendingFrame ps).Inv :=
  ⟨rfl, legal_P0, inv_framed, event_framed⟩

theorem inv_pending_ascii : (pending idleNew 0b01#2 0b00#2 0x46#8 []).Inv :=
  ⟨rfl, by decide, inv_idle, by constructor <;> decide⟩
theorem inv_pending_checksum : (pending (within .idle 3 3 1 false [(0, 1#8), (1, 0#8), (2, 0xFD#8)]) 0b11#2 0b01#2 0xFD#8 []).Inv :=
  ⟨rfl, by decide, by constructor <;> decide, by constructor <;> decide⟩
theorem inv_pending_zero : (pending (within .idle 0 0 0 false []) 0b11#2 0b10#2 0x00#8 []).Inv :=
  ⟨rfl, by decide, by constructor <;> decide, by constructor <;> decide⟩
theorem inv_pending_over : (pending (within .idle 9 9 0 true []) 0b11#2 0b11#2 0xDB#8 []).Inv :=
  ⟨rfl, by decide, by constructor <;> decide, by constructor <;> decide⟩

/-! Selection and the edge. -/

/-- DecodeOfEncodeIsTheInstruction: each constructor, at a boundary of its conditions. -/
theorem wit_encode :
    (Instr.idleSom true 0x02#8).wellFormed P0 ∧ (Instr.idleAscii true 0xFF#8).wellFormed P0 ∧
    (Instr.lenOvf true 0x09#8).wellFormed P0 ∧ (Instr.lenOk true 0x08#8).wellFormed P0 ∧ (Instr.lenOk true 0x01#8).wellFormed P0 ∧
    (Instr.payStore 0#8).sideOk ⟨254, 0, 0⟩ ∧ (Instr.payStore 0#8).sideOk ⟨255, 0, 0⟩ ∧ (Instr.payDiscard 0#8).sideOk ⟨0, 2, 0⟩ ∧
    (Instr.payEndFrame 0xFF#8).sideOk ⟨254, 255, 1⟩ ∧ (Instr.payEndBadcs 0#8).sideOk ⟨0, 1, 1⟩ ∧
    (Instr.payEndOvf 0#8).sideOk ⟨254, 255, 0⟩ ∧ (Instr.lenZero true).sideOk ⟨0, 0, 0⟩ ∧ (Instr.st3 true 0#8).sideOk ⟨0, 0, 0⟩ ∧
    (2048 : Nat) ≤ 2048 := by decide

/-- EdgeRunsTheDecodedOperation: the edge runs an operation; and the two ways an edge runs none. -/
theorem wit_edge_runs :
    (offered lenNew 0x03#8).booted = true ∧ (offered lenNew 0x03#8).inputPins.rst = false ∧
    (offered lenNew 0x03#8).inputPins.inValid = true ∧ (offered lenNew 0x03#8).inReady (offered lenNew 0x03#8).inputPins = true ∧
    decode P0 lenNew.side (packWord lenNew.ovf lenNew.st 0x03#8).toNat = .ok (.lenOk false 0x03#8) := by decide
theorem wit_edge_idle : ∃ t, (quiet lenNew []).inputPins.rst = false ∧ (quiet lenNew []).inputPins.inValid = false ∧
    step (quiet lenNew []) = .next t := ⟨_, rfl, rfl, rfl⟩
theorem wit_edge_held : ∃ t, (pendingFrame [Pins.offer 1#8]).inputPins.rst = false ∧
    (pendingFrame [Pins.offer 1#8]).inReady (pendingFrame [Pins.offer 1#8]).inputPins = false ∧
    step (pendingFrame [Pins.offer 1#8]) = .next t := ⟨_, rfl, rfl, rfl⟩

/-- EventRegisterFollowsItsPrecedence: each branch. -/
theorem wit_precedence :
    (quiet idleNew [resetPins]).inputPins.rst = true ∧
    ((pendingFrame [Pins.accept]).inputPins.rst = false ∧ (pendingFrame [Pins.accept]).booted = true ∧
      (pendingFrame [Pins.accept]).ev.valid = true ∧ (pendingFrame [Pins.accept]).ev.kind ≠ 0b00#2 ∧
      (pendingFrame [Pins.accept]).inputPins.evReady = true) ∧
    ((pendingFrame []).ev.valid = true ∧ (pendingFrame []).inputPins.evReady = false) ∧
    ((offered inFrame 0xFC#8).ev.valid = false ∧ (offered inFrame 0xFC#8).inputPins.inValid = true ∧
      got (byteStep P0 inFrame 0xFC#8) = some (framed, .frame)) ∧
    ((quiet lenNew []).ev.valid = false ∧ (quiet lenNew []).inputPins.inValid = false) := by decide

/-- ResetEdgeGivesTheResetState and OnlyResetAbandonsAFrame, first clause: in WAIT_LEN and in WAIT_PAYLOAD. -/
theorem wit_reset_edge :
    (quiet lenNew [resetPins]).dec.st = .waitLen ∧ (quiet lenNew [resetPins]).inputPins.rst = true ∧
    (quiet inFrame [resetPins]).dec.st = .waitPayload ∧ (quiet inFrame [resetPins]).inputPins.rst = true := by decide
/-- OnlyResetAbandonsAFrame, second clause: each way back to IDLE. -/
theorem wit_back_to_idle :
    (∃ t, step (quiet inFrame [resetPins]) = .next t ∧ t.dec.st = .idle) ∧
    (∃ t, step (offered lenNew 0#8) = .next t ∧ t.dec.st = .idle) ∧
    (∃ t, step (offered inFrame 0xFD#8) = .next t ∧ t.dec.st = .idle) := ⟨⟨_, rfl, rfl⟩, ⟨_, rfl, rfl⟩, ⟨_, rfl, rfl⟩⟩

/-- EdgeStopsOnlyByName: each stop, the store at the first index outside the buffer. -/
theorem wit_stops :
    step { quiet idleNew [] with booted := false } = .refused .beforeFirstReset ∧
    step (pending idleNew 0b00#2 0b00#2 0#8 []) = .fault .reservedEventKind ∧
    step (offered (within .waitPayload 20 8 0 false []) 0#8) = .fault (.bufferRange 8) := ⟨rfl, rfl, rfl⟩

/-! Operations: the selection conditions and the index conditions, at their boundaries. -/

theorem wit_select_idle : (quiet idleNew []).dec.st = .idle ∧ (0x02#8 : Byte) = (quiet idleNew []).params.startMarker ∧
    (0x03#8 : Byte) ≠ (quiet idleNew []).params.startMarker := by decide
theorem wit_select_len : (quiet lenNew []).dec.st = .waitLen ∧ (quiet lenNew []).params.lenMax.toNat < (0x09#8 : Byte).toNat ∧
    1 ≤ (0x01#8 : Byte).toNat ∧ (0x08#8 : Byte).toNat ≤ (quiet lenNew []).params.lenMax.toNat := by decide
theorem wit_select_store : inFrame.st = .waitPayload ∧ inFrame.ovf = false ∧
    (within .waitPayload 3 1 4 false []).cnt.toNat + 1 ≠ (within .waitPayload 3 1 4 false []).len.toNat := by decide
theorem wit_select_end : inFrame.st = .waitPayload ∧ inFrame.ovf = false ∧ inFrame.cnt.toNat + 1 = inFrame.len.toNat ∧
    inFrame.acc + 0xFC#8 = 0#8 ∧ inFrame.acc + 0xFD#8 ≠ 0#8 := by decide
theorem wit_select_over : inOversized.st = .waitPayload ∧ inOversized.ovf = true ∧
    inOversized.cnt.toNat + 1 ≠ inOversized.len.toNat ∧
    (within .waitPayload 255 254 0 true []).cnt.toNat + 1 = (within .waitPayload 255 254 0 true []).len.toNat := by decide
/-- The last index below LEN_MAX, and the first one that is not (StoreOutsideTheBufferFaults). -/
theorem wit_store_index : (within .waitPayload 8 7 0 false []).cnt.toNat < P0.lenMax.toNat ∧
    P0.lenMax.toNat ≤ (within .waitPayload 8 8 0 false []).cnt.toNat := by decide
theorem wit_st3 : (quiet ⟨.unused, 0, 0, 0, 0, true, []⟩ []).dec.st = .unused ∧
    (0x02#8 : Byte) = (quiet ⟨.unused, 0, 0, 0, 0, true, []⟩ []).params.startMarker ∧
    (0x46#8 : Byte) ≠ (quiet ⟨.unused, 0, 0, 0, 0, true, []⟩ []).params.startMarker := by decide

/-! Frames: each operation answers a next state somewhere. -/

theorem wit_frames_plain (ovf : Bool) (b : Byte) (s : State) :
    (∃ t, exec (.idleSom ovf b) s = .next t) ∧ (∃ t, exec (.idleAscii ovf b) s = .next t) ∧
    (∃ t, exec (.lenZero ovf) s = .next t) ∧ (∃ t, exec (.lenOvf ovf b) s = .next t) ∧
    (∃ t, exec (.lenOk ovf b) s = .next t) ∧ (∃ t, exec (.payDiscard b) s = .next t) ∧
    (∃ t, exec (.payEndOvf b) s = .next t) := ⟨⟨_, rfl⟩, ⟨_, rfl⟩, ⟨_, rfl⟩, ⟨_, rfl⟩, ⟨_, rfl⟩, ⟨_, rfl⟩, ⟨_, rfl⟩⟩
theorem wit_frames_store :
    (∃ t, exec (.payStore 5#8) (quiet (within .waitPayload 8 6 0 false []) []) = .next t) ∧
    (∃ t, exec (.payEndFrame 0#8) (quiet (within .waitPayload 8 7 0 false []) []) = .next t) ∧
    (∃ t, exec (.payEndBadcs 5#8) (quiet (within .waitPayload 8 7 0 false []) []) = .next t) := ⟨⟨_, rfl⟩, ⟨_, rfl⟩, ⟨_, rfl⟩⟩
theorem wit_frames_st3 : (∃ t, exec (.st3 true 0x02#8) (quiet idleNew []) = .next t) ∧
    (∃ t, exec (.st3 true 0x46#8) (quiet idleNew []) = .next t) := ⟨⟨_, rfl⟩, ⟨_, rfl⟩⟩
/-- NonStoringOperationsKeepTheBuffer: such an operation. -/
theorem wit_non_storing : ∀ b, Instr.payDiscard 5#8 ≠ .payStore b ∧ Instr.payDiscard 5#8 ≠ .payEndFrame b ∧
    Instr.payDiscard 5#8 ≠ .payEndBadcs b := by simp
/-- OperationsKeepTheBufferCanonical: a buffer full but for its last cell. -/
theorem wit_canonical : Memory.wf [(0, 1#8), (6, 2#8)] = true ∧ Memory.below 8 [(0, 1#8), (6, 2#8)] = true ∧
    (∃ t, exec (.payStore 5#8) (quiet (within .waitPayload 9 7 0 false [(0, 1#8), (6, 2#8)]) []) = .next t) :=
  ⟨rfl, rfl, _, rfl⟩

/-! The checksum functions and the wire frames. -/

theorem wit_single_byte : (0xFD#8 : Byte) ≠ 0xFC#8 ∧ csValid ([0x03#8, 0x01#8, 0x00#8] ++ 0xFC#8 :: []) = true ∧
    csValid ([0x03#8, 0x01#8, 0x00#8] ++ [0xFC#8]) = true ∧ 7 < 8 := by decide
theorem wit_reordered : [0x03#8, 0x01#8, 0x00#8, 0xFC#8].Perm [0x03#8, 0x00#8, 0x01#8, 0xFC#8] ∧
    csValid [0x00#8, 0x00#8] = true ∧ csValid [0x03#8, 0x01#8, 0x00#8, 0xFC#8] = true := by decide
theorem wit_lengths : (List.replicate 252 (0#8 : Byte)).length ≤ 252 := List.length_replicate.le
theorem wit_built : idleNew.st = .idle ∧ ([1#8, 2#8, 3#8, 4#8, 5#8, 6#8, 7#8] : List Byte).length + 1 ≤ P0.lenMax.toNat := by decide

/-! Invariants. -/

theorem wit_legal : P0.legal = true ∧ Params.legal ⟨0x00#8, 2#8⟩ = true ∧ Params.legal ⟨0xFF#8, 255#8⟩ = true := by decide
/-- EveryEdgeKeepsTheInvariant: a reset edge, a retirement and a step, from legal states. -/
theorem wit_edge_inv :
    ((quiet inFrame [resetPins]).Inv ∧ ∃ t, step (quiet inFrame [resetPins]) = .next t) ∧
    ((pendingFrame [Pins.accept]).Inv ∧ ∃ t, step (pendingFrame [Pins.accept]) = .next t) ∧
    ((offered inFrame 0xFC#8).Inv ∧ ∃ t, step (offered inFrame 0xFC#8) = .next t) :=
  ⟨⟨inv_quiet _ _ inv_inFrame, _, rfl⟩, ⟨inv_pendingFrame _, _, rfl⟩, ⟨inv_quiet _ _ inv_inFrame, _, rfl⟩⟩
/-- CounterNeverPassesLength: each clause. -/
theorem wit_counter :
    ((offered lenNew 0#8).handshake = true ∧ ∃ t, step (offered lenNew 0#8) = .next t) ∧
    ((offered inFrame 0xFC#8).Inv ∧ (offered inFrame 0xFC#8).inputPins.rst = false ∧ inFrame.cnt.toNat ≤ inFrame.len.toNat) ∧
    ((offered inOversized 1#8).inputPins.rst = false ∧ inOversized.st = .waitPayload) ∧
    (∃ t, step (offered inFrame 0xFC#8) = .next t ∧ t.dec.st = .idle) :=
  ⟨⟨rfl, _, rfl⟩, ⟨inv_quiet _ _ inv_inFrame, rfl, by decide⟩, ⟨rfl, rfl⟩, ⟨_, rfl, rfl⟩⟩
/-- OnlyAPayloadStepWritesTheBuffer: an edge that changes cell 2, in a legal state. -/
theorem wit_writes : (offered inFrame 0xFC#8).Inv ∧ ∃ t, (offered inFrame 0xFC#8).inputPins.rst = false ∧
    step (offered inFrame 0xFC#8) = .next t ∧ Memory.read t.dec.buf 2 ≠ Memory.read (offered inFrame 0xFC#8).dec.buf 2 :=
  ⟨inv_quiet _ _ inv_inFrame, _, rfl, rfl, by decide⟩

/-! Steps and streams. -/

/-- NoResynchronisationInsideAFrame: two markers, both states of a frame, a byte equal to the marker, and an edge without a
byte, with and without reset. -/
theorem wit_no_resync : P0.lenMax = (⟨0x46#8, 0x08#8⟩ : Params).lenMax ∧ lenNew.st = .waitLen ∧
    got (byteStep P0 lenNew 0x02#8) = some (within .waitPayload 2 0 2 false [], .none) ∧
    got (byteStep P0 inOversized 0x02#8) = some (within .waitPayload 9 4 0x0E#8 true [], .none) ∧
    (quiet inFrame []).handshake = false ∧ (quiet inFrame []).inputPins.rst = false ∧
    (quiet inFrame [resetPins]).handshake = false ∧ (quiet inFrame [resetPins]).inputPins.rst = true := by decide
/-- PayloadIsNotInterpreted: two bytes before the last one, and two last bytes that both fail the check. -/
theorem wit_not_interpreted :
    got (byteStep P0 (within .waitPayload 3 1 4 false []) 0x02#8) = some (within .waitPayload 3 2 6 false [(1, 2#8)], .none) ∧
    got (byteStep P0 (within .waitPayload 3 1 4 false []) 0x46#8) = some (within .waitPayload 3 2 0x4A#8 false [(1, 0x46#8)], .none) ∧
    (inFrame.acc + 0xFD#8 = 0#8 ↔ inFrame.acc + 0xFE#8 = 0#8) ∧
    (got (byteStep P0 inFrame 0xFD#8)).isSome = true ∧ (got (byteStep P0 inFrame 0xFE#8)).isSome = true := by decide
/-- UnretiredEventHoldsTheBlock: a byte offered under a pending event. -/
theorem wit_unretired : (pendingFrame [Pins.offer 0x46#8]).ev.valid = true ∧
    (∀ p ∈ (pendingFrame [Pins.offer 0x46#8]).pins, p.rst = false ∧ p.evReady = false) ∧
    ∃ t, edges 2 (pendingFrame [Pins.offer 0x46#8]) = .next t := ⟨rfl, by decide, _, rfl⟩
/-- ConsoleNeverReceivesStartMarker: the marker in IDLE, and a byte that becomes an ASCII event. -/
theorem wit_console :
    ((offered idleNew 0x02#8).booted = true ∧ (offered idleNew 0x02#8).handshake = true ∧ idleNew.st = .idle ∧
      (offered idleNew 0x02#8).inputPins.inData = (offered idleNew 0x02#8).params.startMarker) ∧
    ∃ t, (offered idleNew 0x46#8).ev.valid = false ∧ step (offered idleNew 0x46#8) = .next t ∧ t.ev.valid = true ∧
      t.ev.kind = 0b01#2 := ⟨by decide, _, rfl, rfl, rfl, rfl⟩
/-- PendingFrameIsPresentedWhole and FrameStaysReadableUntilRetired. -/
theorem wit_pending : (pendingFrame []).Inv ∧ (pendingFrame []).ev.valid = true ∧ (pendingFrame []).ev.kind = 0b10#2 ∧
    (pendingFrame []).inputPins.rst = false ∧ (pendingFrame []).inputPins.evReady = false ∧
    (∃ t, step (pendingFrame []) = .next t) ∧ (2#8 : Byte).toNat < (pendingFrame []).dec.len.toNat :=
  ⟨inv_pendingFrame _, rfl, rfl, rfl, rfl, ⟨_, rfl⟩, by decide⟩
/-- InReadyIsChannelEmptyAndNoReset and OutputPinsShowTheirRegisters: a FRAME pending, the last cell below `len`
addressed. -/
theorem wit_output_pins : (pendingFrame []).booted = true ∧ (pendingFrame []).ev.valid = true ∧
    (pendingFrame []).ev.kind = 0b10#2 ∧ (2#8 : Byte).toNat < (pendingFrame []).dec.len.toNat ∧
    Memory.read (pendingFrame []).dec.buf (2#8 : Byte).toNat = some 0xFC#8 := by decide
/-- EachRegisterHasItsWriters: a stored last byte at the last cell of the buffer, a discarded byte, and `som` at the marker. -/
theorem wit_registers :
    (got (byteStep P0 (within .waitPayload 8 7 0 false []) 0#8)).isSome = true ∧
    (within .waitPayload 8 7 0 false []).cnt.toNat < (within .waitPayload 8 7 0 false []).len.toNat ∧
    (got (byteStep P0 inOversized 0x02#8)).isSome = true ∧ inOversized.st = .waitPayload ∧ inOversized.ovf = true ∧
    inOversized.som = P0.startMarker := by decide
/-- PartialFrameWaits: the shortest partial frame, LEN_MAX, and the first oversized LENGTH. -/
theorem wit_partial : idleNew.st = .idle ∧ ([] : List Byte).length < (1#8 : Byte).toNat ∧
    ([1#8, 2#8, 3#8, 4#8, 5#8, 6#8, 7#8] : List Byte).length < (8#8 : Byte).toNat ∧ (8#8 : Byte).toNat ≤ P0.lenMax.toNat ∧
    ([0#8] : List Byte).length < (9#8 : Byte).toNat ∧ P0.lenMax.toNat < (9#8 : Byte).toNat := by decide
/-- ValidFramesAreDispatchedExactlyOnce and EveryCompletedFrameGetsOneEvent: LENGTH 1 and LENGTH = LEN_MAX. -/
theorem wit_valid_frame : idleNew.st = .idle ∧ 1 ≤ (1#8 : Byte).toNat ∧ ([] : List Byte).length + 1 = (1#8 : Byte).toNat ∧
    (8#8 : Byte).toNat ≤ P0.lenMax.toNat ∧
    ([1#8, 2#8, 3#8, 4#8, 5#8, 6#8, 7#8] : List Byte).length + 1 = (8#8 : Byte).toNat := by decide
/-- The converse of ValidFramesAreDispatchedExactlyOnce: the stream of F7 (95_test_vectors.md section 4.1). -/
theorem wit_frame_event : got (feed P0 idleNew [0x02#8, 0x01#8, 0xFF#8]) =
    some (within .idle 1 1 0 false [(0, 0xFF#8)], [.none, .none] ++ [.frame]) := by decide
/-- EveryCompletedFrameGetsOneEvent: an oversized frame of LEN_MAX + 1 bytes, and a stream that goes on (F10's). -/
theorem wit_completed : 1 ≤ (9#8 : Byte).toNat ∧ (List.replicate 9 (0#8 : Byte)).length = (9#8 : Byte).toNat ∧
    P0.lenMax.toNat < (9#8 : Byte).toNat ∧ 7 < 8 ∧
    got (feed P0 (within .idle 2 2 0x49#8 false []) [0x46#8]) = some (within .idle 2 2 0x49#8 false [], [.ascii 0x46#8]) := by decide
/-- HiddenRegistersDoNotShow: two decoders in IDLE that differ in everything reset leaves open. -/
theorem wit_hidden : idleNew.st = .idle ∧ (⟨.idle, 0, 0, 0, 0, true, [(3, 7#8)]⟩ : Decoder).st = .idle := by decide
/-- WrapperRefinesTheByteStepModel: a legal state with bytes and a retirement on its pins. -/
theorem wit_wrapper : (quiet idleNew [Pins.offer 0x46#8, Pins.offer 0x02#8, Pins.accept]).Inv ∧
    ∀ p ∈ (quiet idleNew [Pins.offer 0x46#8, Pins.offer 0x02#8, Pins.accept]).pins, p.rst = false :=
  ⟨inv_quiet _ _ inv_idle, by decide⟩
/-- ServedStreamIsFullyConsumed. -/
theorem wit_served : (quiet idleNew (servedPins [0x02#8, 0x01#8, 0xFF#8])).Inv ∧
    (quiet idleNew (servedPins [0x02#8, 0x01#8, 0xFF#8])).ev.valid = false ∧
    (quiet idleNew (servedPins [0x02#8, 0x01#8, 0xFF#8])).pins = servedPins [0x02#8, 0x01#8, 0xFF#8] :=
  ⟨inv_quiet _ _ inv_idle, rfl, rfl⟩

end Sys2Proof.Tests
end

section
/-! SUPPORT. The decoder after one step, as one expression for each state, and the value each register takes (R10 to R14,
R25). -/

namespace Sys2Proof.Machine

/-- R63, R64, R73: outside a frame only `st` changes, but for the start marker, which begins a frame. -/
theorem byteStep_outside_frame {P : Params} {d d' : Decoder} {b : Byte} {e : Event}
    (h : byteStep P d b = .next (d', e)) (hp : d.st = .idle ∨ d.st = .unused) :
    d' = if b = P.startMarker then { d with som := b, acc := 0#8, st := .waitLen } else { d with st := .idle } := by
  have hl : d.st ≠ .waitLen := by rcases hp with hp | hp <;> simp [hp]
  have hw : d.st ≠ .waitPayload := by rcases hp with hp | hp <;> simp [hp]
  rcases byteStep_cases h with ⟨-, hb, hd, -⟩ | ⟨-, hb, hd, -⟩ | h
  · rw [if_pos hb, hd]
  · rw [if_neg hb, hd]
  · simp [hl, hw] at h

/-- R65 to R67: the length byte decides `st` and `ovf`; the other registers change the same way whatever it is. -/
theorem byteStep_waitLen {P : Params} {d d' : Decoder} {b : Byte} {e : Event}
    (h : byteStep P d b = .next (d', e)) (hp : d.st = .waitLen) :
    d' = { d.takeLength b (decide (P.lenMax.toNat < b.toNat)) with
      st := if b = 0#8 then .idle else .waitPayload } := by
  have hz : ∀ n, n < b.toNat → b ≠ 0#8 := by rintro n hn rfl; simp at hn
  have hcases := byteStep_cases h
  simp only [hp, reduceCtorEq, false_or, or_false, false_and, true_and] at hcases
  rcases hcases with ⟨rfl, hd, -⟩ | ⟨hover, hd, -⟩ | ⟨hpos, hle, hd, -⟩
  · simp [hd]
  · simp [hd, hover, hz _ hover]
  · simp [hd, Nat.not_lt.mpr hle, hz 0 hpos]

/-- R68 to R72: every payload byte is counted and folded; it is stored unless `ovf` is 1, and the byte that brings the
counter to `len` ends the frame. -/
theorem byteStep_waitPayload {P : Params} {d d' : Decoder} {b : Byte} {e : Event}
    (h : byteStep P d b = .next (d', e)) (hp : d.st = .waitPayload) :
    d' = { d.takePayload b with
      st  := if d.cnt.toNat + 1 = d.len.toNat then .idle else .waitPayload
      buf := if d.ovf then d.buf else Memory.write d.buf d.cnt.toNat b } ∧
    (d.ovf = false → d.cnt.toNat < P.lenMax.toNat) ∧
    (d.ovf = true → e = if d.cnt.toNat + 1 = d.len.toNat then .nack .lenOverflow else .none) := by
  have hcases := byteStep_cases h
  simp only [hp, reduceCtorEq, false_or, false_and, true_and] at hcases
  simp only [Decoder.takePayload, Decoder.fold, Decoder.count] at hcases ⊢
  rcases hcases with ⟨ho, hc, hr, rfl, -⟩ | ⟨ho, hc, rfl, rfl⟩ | ⟨ho, hc, hr, -, rfl, -⟩ | ⟨ho, hc, hr, -, rfl, -⟩ |
    ⟨ho, hc, rfl, rfl⟩
  · simp [ho, hc, hr]
  · simp [ho, hc, hp]
  · simp [ho, hc, hr]
  · simp [ho, hc, hr]
  · simp [ho, hc]

/-- Settles O45: in each state the step is one expression in the decoder, whose fields are the registers' values. -/
theorem eachRegisterHasItsWriters : Obligations.EachRegisterHasItsWriters := by
  intro P d d' b e h
  cases hp : d.st with
  | idle =>
    have hd := byteStep_outside_frame h (.inl hp)
    by_cases hb : b = P.startMarker <;> simp [hd, hb]
  | unused =>
    have hd := byteStep_outside_frame h (.inr hp)
    by_cases hb : b = P.startMarker <;> simp [hd, hb]
  | waitLen => simp [byteStep_waitLen h hp]
  | waitPayload =>
    obtain ⟨hd, hrange, hover⟩ := byteStep_waitPayload h hp
    have hcount : d.cnt.toNat < d.len.toNat →
        (d.cnt + 1#8).toNat = d.cnt.toNat + 1 ∧ (d.cnt + 1#8).toNat ≤ d.len.toNat := fun hlt => by
      rw [toNat_count _ _ hlt]; omega
    have hend : d'.st = .idle ↔ d.cnt.toNat + 1 = d.len.toNat := by simp [hd]
    have hcell : ∀ i, Memory.read d'.buf i =
        if d.ovf = false ∧ i = d.cnt.toNat then some b else Memory.read d.buf i := by
      intro i; cases ho : d.ovf <;> simp [hd, ho, read_write]
    simp only [hend, hcell]
    simpa [hd, -BitVec.toNat_add] using ⟨hcount, hover, hrange, fun ho => by simp [ho]⟩

end Sys2Proof.Machine
end

section
/-! SUPPORT. Who writes the payload buffer, one step and one clock edge at a time (R25). -/

namespace Sys2Proof.Machine

/-- R25: a step stores its byte at the counter before the increment in WAIT_PAYLOAD with `ovf = 0`; every other step keeps
the buffer. -/
theorem byteStep_buf {P : Params} {d d' : Decoder} {b : Byte} {e : Event} (h : byteStep P d b = .next (d', e)) :
    d'.buf = if d.st = .waitPayload ∧ d.ovf = false then Memory.write d.buf d.cnt.toNat b else d.buf := by
  cases hp : d.st with
  | idle => rw [byteStep_outside_frame h (.inl hp)]; by_cases hb : b = P.startMarker <;> simp [hb]
  | unused => rw [byteStep_outside_frame h (.inr hp)]; by_cases hb : b = P.startMarker <;> simp [hb]
  | waitLen => simp [byteStep_waitLen h hp]
  | waitPayload => obtain ⟨hd, -, -⟩ := byteStep_waitPayload h hp; cases ho : d.ovf <;> simp [hd, ho]

/-- R94, R97: an edge that is no reset edge leaves the decoder, or takes the offered byte by one STEP. -/
theorem step_dec_cases {s t : State} (hr : s.inputPins.rst = false) (h : step s = .next t) :
    t.dec = s.dec ∨
      s.handshake = true ∧ ∃ e, byteStep s.params s.dec s.inputPins.inData = .next (t.dec, e) := by
  rcases step_cases h with ⟨hrst, -⟩ | ⟨-, -, -, -, -, rfl⟩ | ⟨-, -, -, -, -, rfl⟩ | ⟨hh, -, hx⟩ | ⟨-, -, -, -, rfl⟩
  · simp [hr] at hrst
  · exact .inl rfl
  · exact .inl rfl
  · rw [← instrFor_tick] at hx
    obtain ⟨d, e, hd, rfl⟩ := byteStep_of_exec hx
    exact .inr ⟨hh, e, hd⟩
  · exact .inl rfl

/-- R21 items 3 and 4: the cell a legal decoder stores to lies below `len`, and `len` is at most LEN_MAX. -/
theorem storeIndex_bounds {P : Params} {d : Decoder} (h : d.Inv P) (hp : d.st = .waitPayload) (ho : d.ovf = false) :
    d.cnt.toNat < d.len.toNat ∧ d.len.toNat ≤ P.lenMax.toNat := by
  obtain ⟨-, hcnt, -⟩ := h.payload hp
  obtain ⟨hlen, -⟩ := h.stored hp ho
  exact ⟨hcnt, hlen⟩

/-- Settles O42: a changed cell needs a STEP, and a STEP writes the cell at `cnt` or none. -/
theorem onlyAPayloadStepWritesTheBuffer : Obligations.OnlyAPayloadStepWritesTheBuffer := by
  refine ⟨fun s t a hr h hne => ?_, fun s hs hp ho => storeIndex_bounds hs.dec hp ho⟩
  rcases step_dec_cases hr h with hd | ⟨hh, e, hb⟩
  · simp [hd] at hne
  · rw [byteStep_buf hb] at hne ⊢
    by_cases hw : s.dec.st = .waitPayload ∧ s.dec.ovf = false
    · have ha : a = s.dec.cnt.toNat := by
        by_contra ha
        simp [hw, read_write_other _ _ ha] at hne
      simp [hh, hw, ha]
    · simp [hw] at hne

end Sys2Proof.Machine
end

section
/-! SUPPORT. R45's row conditions and the decoder's case tree: the selected operation meets its row's conditions, and no
other operation with the same word does. -/

namespace Sys2Proof

/-- R45: the word `w` is in the row of this instruction, and the row's conditions hold. -/
def Instr.MeetsRow (P : Params) (c : Side) (w : SelWord) (i : Instr) : Prop :=
  encode i = w ∧ i.wellFormed P = true ∧ i.sideOk c = true

/-- R45, the rows with `st` = IDLE cover every byte. -/
theorem selectIdle_meetsRow (P : Params) (c : Side) (o : Bool) (b : Byte) :
    (selectIdle P o b).MeetsRow P c (packWord o .idle b) := by
  by_cases hb : b = P.startMarker <;> simp [selectIdle, Instr.MeetsRow, hb, encode, Instr.wellFormed, Instr.sideOk]

/-- R45, the rows with `st` = WAIT_LEN cover every byte. -/
theorem selectLen_meetsRow (P : Params) (c : Side) (o : Bool) (b : Byte) :
    (selectLen P o b).MeetsRow P c (packWord o .waitLen b) := by
  by_cases h0 : b = 0#8
  · simp [selectLen, Instr.MeetsRow, h0, encode, Instr.wellFormed, Instr.sideOk]
  · by_cases hlt : P.lenMax < b
    · simp [selectLen, Instr.MeetsRow, h0, hlt, encode, Instr.wellFormed, Instr.sideOk]
    · simp [selectLen, Instr.MeetsRow, h0, hlt, BitVec.not_lt.mp hlt, encode, Instr.wellFormed, Instr.sideOk]

/-- R45, the rows with `st` = WAIT_PAYLOAD cover every byte beside any `cnt`, `len` and `acc`. -/
theorem selectPay_meetsRow (P : Params) (c : Side) (o : Bool) (b : Byte) :
    (selectPay c o b).MeetsRow P c (packWord o .waitPayload b) := by
  cases o with
  | true => cases hl : c.last <;> simp [selectPay, Instr.MeetsRow, hl, encode, Instr.wellFormed, Instr.sideOk]
  | false =>
    cases hl : c.last
    · simp [selectPay, Instr.MeetsRow, hl, encode, Instr.wellFormed, Instr.sideOk]
    · cases hz : c.zeroWith b <;> simp [selectPay, Instr.MeetsRow, hl, hz, encode, Instr.wellFormed, Instr.sideOk]

/-- R45, existence: the selected operation has the word it was selected by and meets its row's conditions. -/
theorem select_meetsRow (P : Params) (c : Side) (w : SelWord) : (select P c w).MeetsRow P c w := by
  rw [← packWord_fields w, select_packWord]
  cases wordPhase w with
  | idle => exact selectIdle_meetsRow P c _ _
  | waitLen => exact selectLen_meetsRow P c _ _
  | waitPayload => exact selectPay_meetsRow P c _ _
  | unused => exact ⟨rfl, rfl, rfl⟩

/-- R45, mutual exclusion: an instruction that meets its row's conditions is the one its word selects. -/
theorem select_encode {P : Params} {c : Side} {i : Instr} (hw : i.wellFormed P = true) (hs : i.sideOk c = true) :
    select P c (encode i) = i := by
  cases i <;> simp only [encode, select_packWord, selectOp]
  case idleSom | idleAscii => simpa [Instr.wellFormed, selectIdle] using hw
  case lenZero => simp [selectLen]
  case lenOvf => simp_all [Instr.wellFormed, selectLen]
  case lenOk o b =>
    simp only [Instr.wellFormed, Bool.and_eq_true, decide_eq_true_eq] at hw
    obtain ⟨h0, hle⟩ := hw
    simp [selectLen, h0, BitVec.not_lt.mpr hle]
  case payStore | payDiscard | payEndFrame | payEndBadcs | payEndOvf => simp_all [Instr.sideOk, selectPay]

/-- R45: the rows define the selection map. -/
theorem meetsRow_iff_eq_select (P : Params) (c : Side) (w : SelWord) (i : Instr) :
    i.MeetsRow P c w ↔ i = select P c w := by
  constructor
  · rintro ⟨rfl, hw, hs⟩
    exact (select_encode hw hs).symm
  · rintro rfl
    exact select_meetsRow P c w

/-- R45, R66: LEN.OVF is selected only by a byte above LEN_MAX. -/
theorem lenMax_lt_of_select_lenOvf {P : Params} {c : Side} {w : SelWord} {o : Bool} {b : Byte}
    (h : select P c w = .lenOvf o b) : P.lenMax < b := by
  obtain ⟨-, hw, -⟩ := (meetsRow_iff_eq_select P c w _).mpr h.symm
  simp only [Instr.wellFormed, Bool.and_eq_true, decide_eq_true_eq] at hw
  exact hw.2

/-- R45: "computed without wrap". -/
theorem Side.last_iff (c : Side) : c.last = true ↔ c.cnt.toNat + 1 = c.len.toNat := decide_eq_true_iff

/-- Settles O3: the rows' conditions define the decoder's case tree, and no byte is above 255. -/
theorem selectionIsTotalAndDeterministic : Obligations.SelectionIsTotalAndDeterministic := by
  refine ⟨meetsRow_iff_eq_select, Side.last_iff, fun m b o c w h => ?_⟩
  have hb : (255#8 : Byte) < b := lenMax_lt_of_select_lenOvf h
  bv_omega

end Sys2Proof
end

section
/-! SUPPORT. The laws of the checksum functions (R54 to R58): the sum of a changed or reordered sequence, the subtractive
form, and the one byte that completes a sequence. -/

namespace Sys2Proof.Machine

/-- R54: CS_SUM is the sum of the list in the ring of bytes. -/
theorem csSum_eq_sum (x : List Byte) : csSum x = x.sum := List.sum_eq_foldl.symm

/-- R54: the order of the bytes does not matter. -/
theorem csSum_perm {x y : List Byte} (h : x.Perm y) : csSum x = csSum y := by
  rw [csSum_eq_sum, csSum_eq_sum, h.sum_eq]

/-- R54: the sum depends on one byte of a sequence by adding it. -/
theorem csSum_append_cons (x y : List Byte) (a : Byte) : csSum (x ++ a :: y) = csSum (x ++ y) + a := by
  rw [csSum_perm List.perm_middle, csSum_cons, BitVec.add_comm]

/-- R54: CS_SUM is the exact sum modulo 256. -/
theorem toNat_csSum (x : List Byte) : (csSum x).toNat = (x.map BitVec.toNat).sum % 256 := by
  induction x with
  | nil => rfl
  | cons a x ih => rw [csSum_cons, BitVec.toNat_add, ih]; simp

/-- R55: the generated byte is the negated sum. -/
theorem csGen_eq_neg (x : List Byte) : csGen x = -csSum x := BitVec.zero_sub _

/-- R56, R58: a last byte makes a sequence valid exactly if it is the generated one. -/
theorem csValid_concat_iff (x : List Byte) (c : Byte) : csValid (x ++ [c]) = true ↔ c = csGen x := by
  rw [csValid_iff, csSum_concat, csGen_eq_neg, eq_neg_iff_add_eq_zero, BitVec.add_comm, BitVec.ofNat_eq_ofNat]

/-- R57: each byte subtracted is each byte added, negated at the end. -/
theorem csSub_eq_neg (x : List Byte) : csSub x = -csSum x := by
  induction x using List.reverseRecOn with
  | nil => rfl
  | append_singleton x y ih =>
    have hstep : csSub (x ++ [y]) = csSub x - y := by simp [csSub]
    rw [hstep, ih, csSum_concat, neg_add, sub_eq_add_neg]

/-- R60: replacing one byte changes the sum by the difference. -/
theorem csSum_replace (x y : List Byte) (a a' : Byte) :
    csSum (x ++ a' :: y) = csSum (x ++ a :: y) + a' - a := by
  rw [csSum_append_cons, csSum_append_cons]; ring

/-- R60: a valid sequence with exactly one byte changed is not valid. -/
theorem not_csValid_replace {x y : List Byte} {a a' : Byte} (hne : a' ≠ a) (h : csValid (x ++ a :: y) = true) :
    csValid (x ++ a' :: y) = false := by
  rw [csValid_iff] at h
  rw [Bool.eq_false_iff, ne_eq, csValid_iff, csSum_replace x y a a', h, BitVec.zero_add]
  exact sub_ne_zero.mpr hne

/-- A flipped bit changes a byte. -/
theorem xor_twoPow_ne (c : Byte) {k : Nat} (hk : k < 8) : c ^^^ BitVec.twoPow 8 k ≠ c := by
  intro h
  have hbit := congrArg (BitVec.getLsbD · k) h
  simp [hk] at hbit

/-- Flipping the top bit of a byte adds 0x80, since the carry is dropped. -/
theorem xor_topBit_eq_add (a : Byte) : a ^^^ 0x80#8 = a + 0x80#8 := by
  decide +revert

/-- R61: two byte errors that cancel modulo 256 leave the sum. -/
theorem csSum_cancelling (x y z : List Byte) (a b d : Byte) :
    csSum (x ++ (a + d) :: (y ++ (b - d) :: z)) = csSum (x ++ a :: (y ++ b :: z)) := by
  simp only [csSum_append, csSum_cons]; ring

theorem csValid_congr {x y : List Byte} (h : csSum x = csSum y) : csValid x = csValid y := by
  rw [csValid, csValid, h]

/-- Settles O29: the definitions, with the exact sum by induction on the sequence. -/
theorem checksumFunctionsAreDefined : Obligations.ChecksumFunctionsAreDefined := by
  refine ⟨csSum_nil, csSum_concat, toNat_csSum, fun x => ⟨?_, ?_⟩, csValid_iff⟩
  · rw [csGen_eq_neg, BitVec.toNat_neg]
  · rw [csGen_eq_neg, BitVec.neg_eq_not_add]

/-- Settles O30: `SUB` is the negated sum, and only 0 has the negation 0. -/
theorem subtractiveSumGivesTheSameVerdict : Obligations.SubtractiveSumGivesTheSameVerdict := by
  intro x
  rw [csSub_eq_neg, BitVec.zero_sub, BitVec.neg_eq_zero_iff]
  exact ⟨rfl, Iff.rfl⟩

/-- Settles O31: `c` completes `x` exactly if it is the negated sum. -/
theorem generatedChecksumIsTheOnlyValidOne : Obligations.GeneratedChecksumIsTheOnlyValidOne :=
  fun x c => ⟨(csValid_concat_iff x _).mpr rfl, csValid_concat_iff x c⟩

/-- Settles O32: the sum moves by a difference that is not 0; a flipped bit is such a change of the last byte. -/
theorem singleByteErrorIsDetected : Obligations.SingleByteErrorIsDetected :=
  ⟨csSum_replace, fun _ _ _ _ => not_csValid_replace, fun _ c _ hk => not_csValid_replace (xor_twoPow_ne c hk)⟩

/-- Settles O33: a reordering and a cancelling pair keep the sum, and two flips of the top bit are the cancelling pair
with difference 0x80, its own negation. -/
theorem reorderedAndCancellingErrorsPass : Obligations.ReorderedAndCancellingErrorsPass := by
  refine ⟨fun x y h => csValid_congr (csSum_perm h), fun x y z a b d => csValid_congr (csSum_cancelling x y z a b d),
    fun x y z a b => ?_, fun x y hx hy => hy.trans hx.symm⟩
  have hself : b + 0x80#8 = b - 0x80#8 := (sub_eq_add_neg b 0x80#8).symm
  rw [xor_topBit_eq_add, xor_topBit_eq_add, hself]
  exact csValid_congr (csSum_cancelling x y z a b 0x80#8)

end Sys2Proof.Machine
end

section
/-! SUPPORT. A frame within the capacity, fed from IDLE: the decoder before its last byte, and after a last byte that
makes the sum zero (R63, R67, R68, R70). -/

namespace Sys2Proof.Machine

/-- R59, R67, R68: from IDLE, the start marker, a LENGTH within the capacity and payload bytes short of the last one are
taken without an event, summed in `acc` and stored in order. -/
theorem feed_stored_prefix (P : Params) (d : Decoder) (L : Byte) (ps : List Byte) (hd : d.st = .idle)
    (hlt : ps.length < L.toNat) (hle : L.toNat ≤ P.lenMax.toNat) :
    ∃ d', feed P d (P.startMarker :: L :: ps) = .next (d', List.replicate (ps.length + 2) Event.none) ∧
      d'.st = .waitPayload ∧ d'.ovf = false ∧ d'.len = L ∧ d'.cnt.toNat = ps.length ∧ d'.acc = csSum (L :: ps) ∧
      Memory.firstBytes d'.buf ps.length = some ps := by
  obtain ⟨d₁, hfeed₁, hst₁, -, hlen₁, hcnt₁, hacc₁, hovf₁, -⟩ := feed_head P d L hd (by omega)
  have ho₁ : d₁.ovf = false := by rw [← Bool.not_eq_true, hovf₁]; omega
  have hc₁ : d₁.cnt.toNat = 0 := by simp [hcnt₁]
  obtain ⟨d₂, hfeed₂, hst₂, -, hlen₂, hcnt₂, hacc₂, hovf₂, hbuf₂, -⟩ :=
    feed_payload P ps d₁ hst₁ (by rw [hlen₁]; omega) (fun _ => by rw [hlen₁]; exact hle)
  have hcnt : d₂.cnt.toNat = ps.length := by omega
  refine ⟨d₂, ?_, hst₂, hovf₂.trans ho₁, hlen₂.trans hlen₁, hcnt, ?_, ?_⟩
  · exact feed_append hfeed₁ hfeed₂
  · rw [hacc₂, hacc₁, csSum_cons]
  · simpa [hcnt] using hbuf₂ ho₁ [] (by simp [hc₁])

/-- R70: from IDLE, a frame within the capacity whose bytes sum to zero gives FRAME at its last byte and nothing before,
and stands in the buffer in arrival order. -/
theorem feed_valid_frame (P : Params) (d : Decoder) (L c : Byte) (ps : List Byte) (hd : d.st = .idle)
    (hlen : ps.length + 1 = L.toNat) (hle : L.toNat ≤ P.lenMax.toNat) (hvalid : csValid (L :: (ps ++ [c])) = true) :
    ∃ d', feed P d (P.startMarker :: L :: (ps ++ [c])) =
        .next (d', List.replicate (ps.length + 2) Event.none ++ [.frame]) ∧
      d'.st = .idle ∧ d'.len = L ∧ d'.cnt = L ∧ d'.acc = 0#8 ∧
      Memory.firstBytes d'.buf (ps.length + 1) = some (ps ++ [c]) := by
  obtain ⟨d₁, hfeed, hst, hovf, hlen₁, hcnt, hacc, hbuf⟩ := feed_stored_prefix P d L ps hd (by omega) hle
  have hlast : d₁.cnt.toNat + 1 = d₁.len.toNat := by rw [hcnt, hlen₁, hlen]
  have hsum : d₁.acc + c = 0#8 := by
    rw [hacc, ← csSum_concat]; exact (csValid_iff _).mp hvalid
  have hstep := byteStep_end_frame P d₁ c hst hovf hlast (by omega) hsum
  refine ⟨_, feed_concat hfeed hstep, rfl, hlen₁, (count_last _ _ hlast).trans hlen₁, hsum, ?_⟩
  simpa [hcnt] using firstBytes_write_next _ _ c _ hbuf

/-- R36: within the capacity the LENGTH byte is the exact count. -/
theorem toNat_wireLength {body : List Byte} (h : body.length + 1 < 256) :
    (wireLength body).toNat = body.length + 1 := by
  simpa [wireLength] using h

/-- Settles O36: a built frame declares its own length and sums to zero, so it is a valid frame. -/
theorem builtFramesAreHandedOver : Obligations.BuiltFramesAreHandedOver := by
  intro P d body hd hcap
  have hlen := toNat_wireLength (body := body) (by have := P.lenMax.isLt; omega)
  have hvalid := (csValid_concat_iff (wireLength body :: body) _).mpr rfl
  obtain ⟨d', hfeed, hst, -, -, -, hbuf⟩ :=
    feed_valid_frame P d (wireLength body) _ body hd hlen.symm (by omega) hvalid
  exact ⟨d', hfeed, hst, hbuf⟩

end Sys2Proof.Machine
end

section
/-! SUPPORT. R62's case tree, one state at a time, and what each operation does to the machine (R63 to R73). -/

namespace Sys2Proof.Machine

/-- R62, the case IDLE. -/
theorem instrFor_idle {s : State} (hp : s.dec.st = .idle) (b : Byte) :
    s.instrFor b = if b = s.params.startMarker then .idleSom s.dec.ovf b else .idleAscii s.dec.ovf b := by
  rw [instrFor_eq, hp]; rfl

/-- R62, the case WAIT_LEN. -/
theorem instrFor_waitLen {s : State} (hp : s.dec.st = .waitLen) (b : Byte) :
    s.instrFor b =
      if b.toNat = 0 then .lenZero s.dec.ovf
      else if s.params.lenMax.toNat < b.toNat then .lenOvf s.dec.ovf b
      else .lenOk s.dec.ovf b := by
  have hzero : b.toNat = 0 ↔ b = 0#8 := BitVec.toNat_inj (y := 0#8)
  simp only [instrFor_eq, hp, selectOp, selectLen, hzero, BitVec.lt_def]

/-- R62, the case WAIT_PAYLOAD: `cnt + 1` is computed without wrap. -/
theorem instrFor_waitPayload {s : State} (hp : s.dec.st = .waitPayload) (b : Byte) :
    s.instrFor b =
      if s.dec.cnt.toNat + 1 ≠ s.dec.len.toNat then
        if s.dec.ovf = false then .payStore b else .payDiscard b
      else if s.dec.ovf = true then .payEndOvf b
      else if s.dec.acc + b = 0#8 then .payEndFrame b
      else .payEndBadcs b := by
  simp only [instrFor_eq, hp, selectOp, selectPay, Side.last, Side.zeroWith, Decoder.side]
  by_cases hlast : s.dec.cnt.toNat + 1 = s.dec.len.toNat
  · by_cases hsum : s.dec.acc + b = 0#8 <;> simp [hlast, hsum]
  · cases ho : s.dec.ovf <;> simp [hlast]

/-- R73: in the unused encoding every byte selects ST3. -/
theorem instrFor_unused {s : State} (hp : s.dec.st = .unused) (b : Byte) : s.instrFor b = .st3 s.dec.ovf b := by
  rw [instrFor_eq, hp]; rfl

/-- Settles O11: the marker is the first branch of IDLE, and the operation begins a frame. -/
theorem idleSomBeginsAFrame : Obligations.IdleSomBeginsAFrame :=
  fun _ _ b => ⟨fun hp hb => (instrFor_idle hp b).trans (if_pos hb), rfl⟩

/-- Settles O12: any other byte is the second branch of IDLE, and only the event register is loaded. -/
theorem idleAsciiForwardsTheByte : Obligations.IdleAsciiForwardsTheByte :=
  fun _ _ b => ⟨fun hp hb => (instrFor_idle hp b).trans (if_neg hb), rfl⟩

/-- Settles O13: folding 0x00 leaves `acc`. -/
theorem lenZeroRejectsTheFrame : Obligations.LenZeroRejectsTheFrame := by
  refine fun s ovf => ⟨fun hp => (instrFor_waitLen hp _).trans (if_pos rfl), ?_⟩
  simp [exec, execLenZero, rejectFrame_eq, commit_eq, Decoder.takeLength, Decoder.fold, causeBits]

/-- Settles O14: a byte above LEN_MAX is not 0x00, so the second branch of WAIT_LEN takes it. -/
theorem lenOvfEntersDiscardMode : Obligations.LenOvfEntersDiscardMode := by
  refine fun s ovf b => ⟨fun hp hover => ?_, rfl⟩
  rw [instrFor_waitLen hp, if_neg (by omega), if_pos hover]

/-- Settles O15: a byte from 1 to LEN_MAX is the last branch of WAIT_LEN. -/
theorem lenOkAwaitsThePayload : Obligations.LenOkAwaitsThePayload := by
  refine fun s ovf b => ⟨fun hp hpos hle => ?_, rfl⟩
  rw [instrFor_waitLen hp, if_neg (by omega), if_neg (by omega)]

/-- Settles O16: below LEN_MAX the store succeeds, and reading after it shows the one new cell. -/
theorem payStoreStoresFoldsAndCounts : Obligations.PayStoreStoresFoldsAndCounts := by
  refine fun s b => ⟨fun hp ho hmore => ?_, fun hr => ⟨Memory.write s.dec.buf s.dec.cnt.toNat b, ?_, ?_⟩⟩
  · rw [instrFor_waitPayload hp, if_pos hmore, if_pos ho]
  · simp only [exec, execPayStore, storePayload_ok s b hr]; rfl
  · exact fun i => read_write _ _ i b

/-- Settles O17: in discard mode the byte is counted and folded only. -/
theorem payDiscardFoldsAndCounts : Obligations.PayDiscardFoldsAndCounts := by
  refine fun s b => ⟨fun hp ho hmore => ?_, rfl⟩
  rw [instrFor_waitPayload hp, if_pos hmore, if_neg (by simp [ho])]

/-- Settles O18: the last byte is stored as any other, and the accumulator it brings to 0 selects the operation. -/
theorem payEndFrameHandsTheFrameOver : Obligations.PayEndFrameHandsTheFrameOver := by
  refine fun s b => ⟨fun hp ho hlast hsum => ?_, fun hr => ⟨Memory.write s.dec.buf s.dec.cnt.toNat b, ?_, ?_⟩⟩
  · rw [instrFor_waitPayload hp, if_neg (not_not.mpr hlast), if_neg (by simp [ho]), if_pos hsum]
  · simp only [exec, execPayEndFrame, storePayload_ok s b hr]; rfl
  · exact fun i => read_write _ _ i b

/-- Settles O19: the last byte is stored before the check that rejects the frame. -/
theorem payEndBadcsRejectsTheFrame : Obligations.PayEndBadcsRejectsTheFrame := by
  refine fun s b => ⟨fun hp ho hlast hsum => ?_, fun hr => ⟨Memory.write s.dec.buf s.dec.cnt.toNat b, ?_, ?_⟩⟩
  · rw [instrFor_waitPayload hp, if_neg (not_not.mpr hlast), if_neg (by simp [ho]), if_neg hsum]
  · simp only [exec, execPayEndBadcs, storePayload_ok s b hr]; rfl
  · exact fun i => read_write _ _ i b

/-- Settles O20: at the last byte discard mode is tested before the accumulator. -/
theorem payEndOvfRejectsTheFrame : Obligations.PayEndOvfRejectsTheFrame := by
  refine fun s b => ⟨fun hp ho hlast => ?_, rfl⟩
  rw [instrFor_waitPayload hp, if_neg (not_not.mpr hlast), if_pos ho]

/-- Settles O21: ST3 compares the byte with the marker itself, since its selection does not. -/
theorem st3RecoversInOneStep : Obligations.St3RecoversInOneStep :=
  fun _ _ b => ⟨fun hp => instrFor_unused hp b, fun hb => ⟨if_pos hb, if_pos hb⟩, fun hb => if_neg hb⟩

/-- R89, R93: after the first reset edge, an edge without reset is `runEdge`. -/
theorem step_running {s : State} (hb : s.booted = true) (hr : s.inputPins.rst = false) : step s = s.runEdge := by
  simp [step, State.clockEdge, hb, hr]

/-- R21, R94: from a legal state every edge completes, since the reserved kind is never pending and STEP answers. -/
theorem step_completes {s : State} (hs : s.Inv) : Completes (step s) := by
  cases hr : s.inputPins.rst with
  | true => exact ⟨_, step_reset hr⟩
  | false =>
    cases hh : s.handshake with
    | true =>
      obtain ⟨d, e, hstep⟩ := byteStep_of_inv s.params s.dec s.inputPins.inData hs.dec
      have hexec : exec (s.instrFor s.inputPins.inData) s.tick = _ := exec_of_byteStep (s := s.tick) hstep
      exact ⟨_, (step_handshake hs.booted hh).trans hexec⟩
    | false =>
      rw [step_running hs.booted hr, State.runEdge]
      cases hv : s.ev.valid with
      | true =>
        rw [if_pos rfl, if_neg (hs.event.kind hv)]
        split <;> exact ⟨_, rfl⟩
      | false => simp [hh, Completes]

/-- Settles O39: the case tree state by state; STEP and the edge complete from what R21 rules out. -/
theorem everyByteIsConsumedByOneStep : Obligations.EveryByteIsConsumedByOneStep := by
  refine ⟨fun s b => ?_, byteStep_of_inv, fun s => step_completes⟩
  cases hp : s.dec.st with
  | idle => exact instrFor_idle hp b
  | waitLen => exact instrFor_waitLen hp b
  | waitPayload => exact instrFor_waitPayload hp b
  | unused => exact instrFor_unused hp b

end Sys2Proof.Machine
end

section
/-! SUPPORT. STEP as one equation for each state: outside a frame, at LENGTH, and at a payload byte (R62 to R73). -/

namespace Sys2Proof.Machine

/-- R62: outside a frame the byte is compared with START_MARKER and nothing else. -/
theorem byteStep_outside_eq (P : Params) {d : Decoder} (b : Byte) (hp : d.st = .idle ∨ d.st = .unused) :
    byteStep P d b = .next
      (if b = P.startMarker then ({ d with som := b, acc := 0#8, st := .waitLen }, .none)
       else ({ d with st := .idle }, .ascii b)) := by
  by_cases hb : b = P.startMarker
  · subst hb
    rw [if_pos rfl]
    exact hp.elim (byteStep_idle_marker P d) (byteStep_unused_marker P d)
  · rw [if_neg hb]
    rcases hp with hp | hp
    · rw [byteStep_idle_other P d b hp hb, ← hp]
    · exact byteStep_unused_other P d b hp hb

/-- R62: the length byte is compared with 0 and with LEN_MAX. -/
theorem byteStep_waitLen_eq (P : Params) {d : Decoder} (b : Byte) (hp : d.st = .waitLen) :
    byteStep P d b = .next
      ({ d.takeLength b (decide (P.lenMax.toNat < b.toNat)) with st := if b = 0#8 then .idle else .waitPayload },
        if b = 0#8 then .nack .lenZero else .none) := by
  by_cases hzero : b = 0#8
  · subst hzero; simpa using byteStep_len_zero P d hp
  · by_cases hover : P.lenMax.toNat < b.toNat
    · simpa [hzero, hover] using byteStep_len_over P d b hp hover
    · simpa [hzero, hover] using byteStep_len_ok P d b hp (one_le_of_ne_zero b hzero) (by omega)

theorem takePayload_eq (d : Decoder) (b : Byte) :
    d.takePayload b = { d with acc := d.acc + b, cnt := d.cnt + 1#8 } := rfl

/-- R68 to R72: the event of a payload byte. -/
def Decoder.payloadEvent (d : Decoder) (b : Byte) : Event :=
  if d.cnt.toNat + 1 = d.len.toNat then
    if d.ovf then .nack .lenOverflow else if d.acc + b = 0#8 then .frame else .nack .checksum
  else .none

/-- R68 to R72: the decoder after a payload byte. -/
def Decoder.afterPayload (d : Decoder) (b : Byte) : Decoder :=
  { d.takePayload b with
    st  := if d.cnt.toNat + 1 = d.len.toNat then .idle else .waitPayload
    buf := if d.ovf then d.buf else Memory.write d.buf d.cnt.toNat b }

/-- R62: a payload byte is counted, folded and stored or dropped; where it ends the frame, `ovf` and then `acc + b` choose
the event. -/
theorem byteStep_waitPayload_eq (P : Params) {d : Decoder} (b : Byte) (hp : d.st = .waitPayload)
    (hr : d.ovf = false → d.cnt.toNat < P.lenMax.toNat) :
    byteStep P d b = .next (d.afterPayload b, d.payloadEvent b) := by
  simp only [Decoder.afterPayload, Decoder.payloadEvent]
  by_cases hlast : d.cnt.toNat + 1 = d.len.toNat <;> cases ho : d.ovf
  · by_cases hsum : d.acc + b = 0#8
    · simpa [hlast, hsum] using byteStep_end_frame P d b hp ho hlast (hr ho) hsum
    · simpa [hlast, hsum] using byteStep_end_badcs P d b hp ho hlast (hr ho) hsum
  · simpa [hlast] using byteStep_end_over P d b hp ho hlast
  · simpa [hlast, hp, ho, takePayload_eq] using byteStep_pay_store P d b hp ho hlast (hr ho)
  · simpa [hlast, hp, ho, takePayload_eq] using byteStep_pay_discard P d b hp ho hlast

/-- Where STEP answers to a payload byte, it answers the one decoder and event. -/
theorem byteStep_waitPayload_inv {P : Params} {d d' : Decoder} {b : Byte} {e : Event}
    (h : byteStep P d b = .next (d', e)) (hp : d.st = .waitPayload) :
    d' = d.afterPayload b ∧ e = d.payloadEvent b := by
  obtain ⟨-, hr, -⟩ := byteStep_waitPayload h hp
  rw [byteStep_waitPayload_eq P b hp hr] at h
  cases h
  exact ⟨rfl, rfl⟩

/-- R75: inside a frame STEP does not read START_MARKER. -/
theorem byteStep_startMarker_irrelevant {P Q : Params} {d : Decoder} (b : Byte) (hmax : P.lenMax = Q.lenMax)
    (hp : d.st = .waitLen ∨ d.st = .waitPayload) : byteStep P d b = byteStep Q d b := by
  rcases hp with hp | hp
  · rw [byteStep_waitLen_eq P b hp, byteStep_waitLen_eq Q b hp, hmax]
  · by_cases hr : d.ovf = false → d.cnt.toNat < Q.lenMax.toNat
    · rw [byteStep_waitPayload_eq Q b hp hr, byteStep_waitPayload_eq P b hp (hmax ▸ hr)]
    · obtain ⟨ho, hout⟩ := Classical.not_imp.mp hr
      rw [byteStep_store_outside Q d b hp ho hout, byteStep_store_outside P d b hp ho (hmax ▸ hout)]

/-- R75, R94: an edge without a handshake leaves the decoder, or resets it. -/
theorem step_dec_of_no_handshake {s t : State} (hh : s.handshake = false) (h : step s = .next t)
    (hr : s.inputPins.rst = false) : t.dec = s.dec := by
  rcases step_dec_cases hr h with hd | ⟨hh', -⟩
  · exact hd
  · simp [hh] at hh'

/-- Settles O43: STEP inside a frame mentions LEN_MAX alone, and goes on unless LENGTH is 0 or the counter is at its end;
an edge moves the decoder by a STEP or by a reset only. -/
theorem noResynchronisationInsideAFrame : Obligations.NoResynchronisationInsideAFrame := by
  refine ⟨fun P Q d b => byteStep_startMarker_irrelevant b, fun P d d' b e h => ⟨fun hp hb => ?_, fun hp hmore => ?_⟩,
    fun s t hh h => ⟨step_dec_of_no_handshake hh h, fun hr => ?_⟩⟩
  · rw [byteStep_waitLen_eq P b hp] at h
    cases h
    exact ⟨if_neg hb, if_neg hb⟩
  · obtain ⟨rfl, rfl⟩ := byteStep_waitPayload_inv h hp
    exact ⟨if_neg hmore, if_neg hmore⟩
  · rw [step_reset hr] at h
    cases h
    exact ⟨rfl, rfl⟩

/-- R74: beside any other buffer a step does the same to every register and emits the same event. -/
theorem byteStep_buf_irrelevant {P : Params} {d d' : Decoder} {b : Byte} {e : Event} (m : Memory)
    (h : byteStep P d b = .next (d', e)) :
    ∃ m', byteStep P { d with buf := m } b = .next ({ d' with buf := m' }, e) := by
  have hphase : (d.st = .idle ∨ d.st = .unused) ∨ d.st = .waitLen ∨ d.st = .waitPayload := by
    cases d.st <;> simp
  rcases hphase with hp | hp | hp
  · have hm := byteStep_outside_eq P (d := { d with buf := m }) b hp
    rw [byteStep_outside_eq P b hp] at h
    by_cases hb : b = P.startMarker
    · rw [if_pos hb] at h hm; cases h; exact ⟨m, hm⟩
    · rw [if_neg hb] at h hm; cases h; exact ⟨m, hm⟩
  · rw [byteStep_waitLen_eq P b hp] at h
    cases h
    exact ⟨m, byteStep_waitLen_eq P (d := { d with buf := m }) b hp⟩
  · obtain ⟨-, hr, -⟩ := byteStep_waitPayload h hp
    obtain ⟨rfl, rfl⟩ := byteStep_waitPayload_inv h hp
    exact ⟨_, byteStep_waitPayload_eq P (d := { d with buf := m }) b hp hr⟩

/-- R74: the event of a payload byte depends on the byte at the last byte only, and there through `acc + b = 0`. -/
theorem payloadEvent_congr {d : Decoder} {b₁ b₂ : Byte}
    (h : d.cnt.toNat + 1 ≠ d.len.toNat ∨ (d.acc + b₁ = 0#8 ↔ d.acc + b₂ = 0#8)) :
    d.payloadEvent b₂ = d.payloadEvent b₁ := by
  rcases h with hmore | hsum
  · simp [Decoder.payloadEvent, hmore]
  · simp [Decoder.payloadEvent, hsum]

/-- Settles O44: STEP's equations name the buffer only as what is written, and the payload byte only in `acc`, the buffer
and the zero test. -/
theorem payloadIsNotInterpreted : Obligations.PayloadIsNotInterpreted := by
  refine ⟨fun P d d' b e m => byteStep_buf_irrelevant m, fun P d d₁ d₂ b₁ b₂ e₁ e₂ hp hcond h₁ h₂ => ?_⟩
  obtain ⟨rfl, rfl⟩ := byteStep_waitPayload_inv h₁ hp
  obtain ⟨rfl, rfl⟩ := byteStep_waitPayload_inv h₂ hp
  exact ⟨rfl, payloadEvent_congr hcond⟩

end Sys2Proof.Machine
end

section
/-! SUPPORT. Frames fed from IDLE: the decoder inside a frame, the event of a completed frame (R77), and where in a stream
the decoder is inside one (R76). -/

namespace Sys2Proof.Machine

/-- A decoder that has taken START_MARKER, the LENGTH `L` and the payload bytes `ps`, fewer than `L`, from IDLE. -/
structure Decoder.InFrame (P : Params) (L : Byte) (ps : List Byte) (d : Decoder) : Prop where
  st  : d.st = .waitPayload
  som : d.som = P.startMarker
  len : d.len = L
  cnt : d.cnt.toNat = ps.length
  acc : d.acc = csSum (L :: ps)
  ovf : d.ovf = true ↔ P.lenMax.toNat < L.toNat
  buf : L.toNat ≤ P.lenMax.toNat → Memory.firstBytes d.buf ps.length = some ps

/-- Within the capacity the frame is stored. -/
theorem Decoder.InFrame.ovf_eq_false {P : Params} {L : Byte} {ps : List Byte} {d : Decoder} (h : d.InFrame P L ps)
    (hle : L.toNat ≤ P.lenMax.toNat) : d.ovf = false := by
  rw [← Bool.not_eq_true, h.ovf]; omega

/-- The byte that completes the payload is the last one to the decoder. -/
theorem Decoder.InFrame.last {P : Params} {L : Byte} {ps : List Byte} {d : Decoder} (h : d.InFrame P L ps)
    (hlen : ps.length + 1 = L.toNat) : d.cnt.toNat + 1 = d.len.toNat := by
  rw [h.cnt, h.len, hlen]

/-- R56, R59: the zero test at the last byte is CS_VALID of the frame. -/
theorem Decoder.InFrame.sum_eq_zero_iff {P : Params} {L : Byte} {ps : List Byte} {d : Decoder} (h : d.InFrame P L ps)
    (c : Byte) : d.acc + c = 0#8 ↔ csValid (L :: (ps ++ [c])) = true := by
  rw [h.acc, csValid_iff, ← List.cons_append, csSum_concat]

/-- R59, R63, R66 to R69: START_MARKER, a LENGTH and fewer payload bytes than it says lead from IDLE into the frame
without an event. -/
theorem feed_into_frame (P : Params) {d : Decoder} {L : Byte} {ps : List Byte} (hd : d.st = .idle)
    (hlt : ps.length < L.toNat) :
    ∃ d', feed P d (P.startMarker :: L :: ps) = .next (d', List.replicate (ps.length + 2) Event.none) ∧
      d'.InFrame P L ps ∧
      (L.toNat ≤ P.lenMax.toNat → performed P d (P.startMarker :: L :: ps) =
        .idleSom d.ovf P.startMarker :: .lenOk d.ovf L :: ps.map Instr.payStore) := by
  obtain ⟨d₁, hhead, hst₁, hsom₁, hlen₁, hcnt₁, hacc₁, hovf₁, -, hops₁, -⟩ := feed_head P d L hd (by omega)
  have hc₁ : d₁.cnt.toNat = 0 := by simp [hcnt₁]
  have hstored (hle : L.toNat ≤ P.lenMax.toNat) : d₁.ovf = false := by
    rw [← Bool.not_eq_true, hovf₁]; omega
  have hcap (ho : d₁.ovf = false) : d₁.len.toNat ≤ P.lenMax.toNat := by
    rw [← Bool.not_eq_true, hovf₁] at ho; rw [hlen₁]; omega
  obtain ⟨d₂, hpay, hst₂, hsom₂, hlen₂, hcnt₂, hacc₂, hovf₂, hbuf₂, -, hops₂⟩ :=
    feed_payload P ps d₁ hst₁ (by rw [hlen₁]; omega) hcap
  have hcnt : d₂.cnt.toNat = ps.length := by omega
  refine ⟨d₂, feed_append hhead hpay, ⟨hst₂, hsom₂.trans hsom₁, hlen₂.trans hlen₁, hcnt, ?_, ?_, fun hle => ?_⟩,
    fun hle => ?_⟩
  · rw [hacc₂, hacc₁, csSum_cons]
  · rw [hovf₂, hovf₁]
  · simpa [hcnt] using hbuf₂ (hstored hle) [] (by simp [hc₁])
  · have happend := performed_append (y := ps) hhead
    rw [hops₁ hle, hops₂ (hstored hle)] at happend
    exact happend

/-- R77: the event of a completed frame. -/
def frameEvent (P : Params) (L : Byte) (ps : List Byte) : Event :=
  if P.lenMax.toNat < L.toNat then .nack .lenOverflow
  else if csValid (L :: ps) = true then .frame else .nack .checksum

/-- R70 to R72: the LENGTH-th payload byte ends the frame in IDLE with the frame's event. -/
theorem Decoder.InFrame.byteStep_last {P : Params} {L : Byte} {ps : List Byte} {d : Decoder} (h : d.InFrame P L ps)
    (hlen : ps.length + 1 = L.toNat) (c : Byte) :
    byteStep P d c = .next (d.afterPayload c, frameEvent P L (ps ++ [c])) ∧ (d.afterPayload c).st = .idle := by
  have hlast := h.last hlen
  have hr (ho : d.ovf = false) : d.cnt.toNat < P.lenMax.toNat := by
    rw [← Bool.not_eq_true, h.ovf] at ho; rw [h.cnt]; omega
  have hevent : d.payloadEvent c = frameEvent P L (ps ++ [c]) := by
    simp only [Decoder.payloadEvent, frameEvent, hlast, h.ovf, h.sum_eq_zero_iff, ↓reduceIte]
  exact ⟨hevent ▸ byteStep_waitPayload_eq P c h.st hr, if_pos hlast⟩

/-- R77: a completed frame gives its event at its last byte, none before, and leaves the decoder in IDLE. -/
theorem feed_completed_frame (P : Params) {d : Decoder} {L c : Byte} {ps : List Byte} (hd : d.st = .idle)
    (hlen : ps.length + 1 = L.toNat) :
    ∃ d', feed P d (P.startMarker :: L :: (ps ++ [c])) =
        .next (d', List.replicate (ps.length + 2) Event.none ++ [frameEvent P L (ps ++ [c])]) ∧ d'.st = .idle := by
  obtain ⟨d₁, hfeed, hin, -⟩ := feed_into_frame P hd hlen.le
  obtain ⟨hstep, hidle⟩ := hin.byteStep_last hlen c
  exact ⟨_, feed_concat hfeed hstep, hidle⟩

/-- R60: one flipped bit in the checksum byte makes the frame invalid. -/
theorem csValid_flipped_checksum (x : List Byte) {k : Nat} (hk : k < 8) :
    csValid (x ++ [csGen x ^^^ BitVec.twoPow 8 k]) = false := by
  rw [Bool.eq_false_iff, ne_eq, csValid_concat_iff]
  exact xor_twoPow_ne _ hk

/-- Settles O53: a completed frame is one LENGTH and as many bytes, the last of which ends it by `frameEvent`; the rest of
the stream is fed from there. -/
theorem everyCompletedFrameGetsOneEvent : Obligations.EveryCompletedFrameGetsOneEvent := by
  refine ⟨fun P d hd => ?_, fun P d L ps hd hpos hlen => ?_, fun P d L ps k hd _ hle hlen hk => ?_⟩
  · have hmarker := byteStep_idle_marker P d hd
    exact ⟨_, feed_cons hmarker (feed_single (byteStep_len_zero P _ rfl)), rfl⟩
  · obtain ⟨qs, c, rfl⟩ := (List.eq_nil_or_concat' ps).resolve_left (by rintro rfl; simp at hlen; omega)
    rw [List.length_append, List.length_singleton] at hlen ⊢
    obtain ⟨d', hfeed, hidle⟩ := feed_completed_frame P (c := c) hd hlen
    exact ⟨d', _, rfl, hfeed, hidle, fun rest d'' es' hrest => feed_append hfeed hrest⟩
  · have hbad := csValid_flipped_checksum (L :: ps) hk
    rw [List.cons_append] at hbad
    have hevent : frameEvent P L (ps ++ [csGen (L :: ps) ^^^ BitVec.twoPow 8 k]) = .nack .checksum := by
      rw [frameEvent, if_neg (by omega), if_neg (by simp [hbad])]
    exact hevent ▸ feed_completed_frame P hd hlen

/-- The operation of a one-byte stream. -/
theorem performed_single (P : Params) (d : Decoder) (b : Byte) :
    performed P d [b] = [(State.atDecoder P d).instrFor b] := by
  simp only [performed]
  split <;> rfl

/-- R76: the operations of a valid frame within the capacity. -/
theorem performed_valid_frame (P : Params) {d : Decoder} {L c : Byte} {ps : List Byte} (hd : d.st = .idle)
    (hlen : ps.length + 1 = L.toNat) (hle : L.toNat ≤ P.lenMax.toNat) (hvalid : csValid (L :: (ps ++ [c])) = true) :
    performed P d (P.startMarker :: L :: (ps ++ [c])) =
      .idleSom d.ovf P.startMarker :: .lenOk d.ovf L :: (ps.map Instr.payStore ++ [.payEndFrame c]) := by
  obtain ⟨d₁, hfeed, hin, hops⟩ := feed_into_frame P hd hlen.le
  have hop : (State.atDecoder P d₁).instrFor c = .payEndFrame c :=
    (payEndFrameHandsTheFrameOver (State.atDecoder P d₁) c).1 hin.st (hin.ovf_eq_false hle) (hin.last hlen)
      ((hin.sum_eq_zero_iff c).mpr hvalid)
  have happend := performed_append (y := [c]) hfeed
  rw [hops hle, performed_single, hop] at happend
  exact happend

/-- R76: where in a stream from `d` the decoder stands in each state: after START_MARKER taken in IDLE it awaits LENGTH,
and then it is inside the frame until LENGTH bytes are taken. -/
def StandsAt (P : Params) (d : Decoder) (bs : List Byte) : Phase → Prop
  | .idle        => True
  | .waitLen     => ∃ before d₀ es₀, bs = before ++ [P.startMarker] ∧ feed P d before = .next (d₀, es₀) ∧ d₀.st = .idle
  | .waitPayload => ∃ before L ps d₀ es₀, bs = before ++ P.startMarker :: L :: ps ∧
      feed P d before = .next (d₀, es₀) ∧ d₀.st = .idle ∧ ps.length < L.toNat
  | .unused      => False

/-- The decoder and the events after a stream that stops inside a frame. -/
theorem inFrame_of_feed {P : Params} {d d₀ d' : Decoder} {before ps : List Byte} {L : Byte} {es₀ es : List Event}
    (hbefore : feed P d before = .next (d₀, es₀)) (hd₀ : d₀.st = .idle) (hlt : ps.length < L.toNat)
    (h : feed P d (before ++ P.startMarker :: L :: ps) = .next (d', es)) :
    d'.InFrame P L ps ∧ es = es₀ ++ List.replicate (ps.length + 2) Event.none := by
  obtain ⟨d₁, hfeed, hin, -⟩ := feed_into_frame P hd₀ hlt
  rw [feed_append hbefore hfeed] at h
  cases h
  exact ⟨hin, rfl⟩

/-- R10, R63: a completed frame leaves the start marker it began with in `som`. -/
theorem som_of_completed_frame {P : Params} {d d' : Decoder} {L c : Byte} {ps : List Byte} {es : List Event}
    (hd : d.st = .idle) (hlen : ps.length + 1 = L.toNat)
    (h : feed P d (P.startMarker :: L :: (ps ++ [c])) = .next (d', es)) : d'.som = P.startMarker := by
  obtain ⟨d₁, es₁, e, hfeed, hstep, -⟩ := feed_concat_inv (x := P.startMarker :: L :: ps) h
  obtain ⟨hin, -⟩ := inFrame_of_feed (feed_nil P d) hd hlen.le hfeed
  obtain ⟨hd', -⟩ := byteStep_waitPayload hstep hin.st
  rw [hd']
  exact hin.som

/-- One more byte keeps the stand of the decoder. -/
theorem standsAt_concat {P : Params} {d d₁ d₂ : Decoder} {bs : List Byte} {b : Byte} {es : List Event} {e : Event}
    (hfeed : feed P d bs = .next (d₁, es)) (hstand : StandsAt P d bs d₁.st) (hstep : byteStep P d₁ b = .next (d₂, e)) :
    StandsAt P d (bs ++ [b]) d₂.st := by
  cases hp : d₁.st with
  | unused => rw [hp] at hstand; exact hstand.elim
  | idle =>
    rw [byteStep_outside_frame hstep (.inl hp)]
    by_cases hb : b = P.startMarker
    · subst hb
      rw [if_pos rfl]
      exact ⟨bs, d₁, es, rfl, hfeed, hp⟩
    · rw [if_neg hb]; trivial
  | waitLen =>
    rw [hp] at hstand
    obtain ⟨before, d₀, es₀, rfl, hbefore, hd₀⟩ := hstand
    rw [byteStep_waitLen hstep hp]
    by_cases hzero : b = 0#8
    · simp [hzero, StandsAt]
    · simp only [hzero, ↓reduceIte]
      exact ⟨before, b, [], d₀, es₀, by simp, hbefore, hd₀, one_le_of_ne_zero b hzero⟩
  | waitPayload =>
    rw [hp] at hstand
    obtain ⟨before, L, ps, d₀, es₀, rfl, hbefore, hd₀, hlt⟩ := hstand
    obtain ⟨hin, -⟩ := inFrame_of_feed hbefore hd₀ hlt hfeed
    obtain ⟨hd₂, -⟩ := byteStep_waitPayload hstep hp
    rw [hd₂, hin.cnt, hin.len]
    by_cases hlast : ps.length + 1 = L.toNat
    · simp [hlast, StandsAt]
    · simp only [hlast, ↓reduceIte]
      exact ⟨before, L, ps ++ [b], d₀, es₀, by simp, hbefore, hd₀, by simp; omega⟩

/-- R76: every stream from IDLE leaves the decoder where its state says. -/
theorem standsAt_of_feed {P : Params} {d : Decoder} (hd : d.st = .idle) (bs : List Byte) :
    ∀ {d' : Decoder} {es : List Event}, feed P d bs = .next (d', es) → StandsAt P d bs d'.st := by
  induction bs using List.reverseRecOn with
  | nil =>
    intro d' es h
    cases h
    rw [hd]
    trivial
  | append_singleton bs b ih =>
    intro d' es h
    obtain ⟨d₁, es₁, e, hfeed, hstep, -⟩ := feed_concat_inv h
    exact standsAt_concat hfeed (ih hfeed) hstep

/-- R70: what a step that emits FRAME finds. -/
theorem byteStep_frame {P : Params} {d d' : Decoder} {b : Byte} (h : byteStep P d b = .next (d', .frame)) :
    d.st = .waitPayload ∧ d.ovf = false ∧ d.cnt.toNat + 1 = d.len.toNat ∧ d.acc + b = 0#8 := by
  have hcases := byteStep_cases h
  simp only [reduceCtorEq, and_false, false_or, or_false, and_true] at hcases
  obtain ⟨hp, ho, hlast, -, hsum, -⟩ := hcases
  exact ⟨hp, ho, hlast, hsum⟩

/-- Settles O52: forwards by the run into the frame and its last byte; backwards, the step that emits FRAME is in
WAIT_PAYLOAD, and where that stands in the stream gives the frame. -/
theorem validFramesAreDispatchedExactlyOnce : Obligations.ValidFramesAreDispatchedExactlyOnce := by
  refine ⟨fun P d L ps hd _ hle hlen => ?_, fun P d d' bs es hd h => ?_⟩
  · have hvalid := (csValid_concat_iff (L :: ps) _).mpr rfl
    rw [List.cons_append] at hvalid
    obtain ⟨d', hfeed, hst, hlen', hcnt, hacc, hbuf⟩ := feed_valid_frame P d L _ ps hd hlen hle hvalid
    exact ⟨performed_valid_frame P hd hlen hle hvalid, d', hfeed, hst, som_of_completed_frame hd hlen hfeed, hlen', hcnt,
      hacc, fun k hk => read_of_firstBytes _ _ _ hbuf k (hlen.symm ▸ hk)⟩
  · obtain ⟨init, b, rfl⟩ := (List.eq_nil_or_concat' bs).resolve_left (by rintro rfl; simp at h)
    obtain ⟨d₁, es₁, e, hinit, hstep, hes⟩ := feed_concat_inv h
    obtain ⟨rfl, rfl⟩ := List.append_singleton_inj.mp hes
    obtain ⟨hp, ho, hlast, hsum⟩ := byteStep_frame hstep
    have hstand := standsAt_of_feed hd init hinit
    rw [hp] at hstand
    obtain ⟨before, L, ps, d₀, es₀, rfl, hbefore, hd₀, hlt⟩ := hstand
    obtain ⟨hin, rfl⟩ := inFrame_of_feed hbefore hd₀ hlt hinit
    rw [hin.cnt, hin.len] at hlast
    rw [← Bool.not_eq_true, hin.ovf] at ho
    exact ⟨before, L, ps ++ [b], d₀, es₀, by simp, hbefore, hd₀, by omega, by omega, by simpa using hlast,
      (hin.sum_eq_zero_iff b).mp hsum, by simp⟩

end Sys2Proof.Machine
end

section
/-! SUPPORT. The clock edge in terms of the handshake and of STEP: what a reset edge, a pending event, an offered byte and
no byte do to the machine (R90 to R97). -/

namespace Sys2Proof.Machine

/-- R95: a byte is accepted while the event channel is empty and no reset is asserted. -/
theorem inReady_iff (s : State) (p : Pins) : s.inReady p = true ↔ s.ev.valid = false ∧ p.rst = false := by
  simp [State.inReady]

/-- R94: the handshake by its pins. -/
theorem handshake_iff_inReady (s : State) :
    s.handshake = true ↔
      s.inputPins.rst = false ∧ s.inputPins.inValid = true ∧ s.inReady s.inputPins = true := by
  simp [State.handshake, and_assoc]

/-- R90, R94: no byte is taken at a reset edge. -/
theorem handshake_of_reset {s : State} (hr : s.inputPins.rst = true) : s.handshake = false := by
  simp [State.handshake, hr]

/-- R45: a word of 11 bits is never rejected. -/
theorem decode_toNat (P : Params) (c : Side) (w : SelWord) : decode P c w.toNat = .ok (select P c w) := by
  rw [decode, if_pos w.isLt, BitVec.ofNat_toNat, BitVec.setWidth_eq]

/-- R96, the third branch: every event but none loads the whole register. -/
theorem load_eq (r : EventReg) (b : Byte) (e : Event) :
    r.load b e =
      if e = .none then r else { valid := true, kind := kindCode e, cause := causeCode e, data := b } := by
  cases e <;> simp [EventReg.load]

/-- R96, the second branch: the pending event is retired by `ev_ready` and held without it. -/
theorem step_pending {s : State} (hb : s.booted = true) (hr : s.inputPins.rst = false) (hv : s.ev.valid = true)
    (hk : s.ev.kind ≠ 0b00#2) : step s = if s.inputPins.evReady then .next s.tick.retire else .next s.tick := by
  rw [step_running hb hr, State.runEdge, if_pos hv, if_neg hk]

/-- R96, the last branch: with the channel empty and no byte offered nothing changes. -/
theorem step_idle_pins {s : State} (hb : s.booted = true) (hr : s.inputPins.rst = false) (hv : s.ev.valid = false)
    (hi : s.inputPins.inValid = false) : step s = .next s.tick := by
  have hh : s.handshake = false := by simp [State.handshake, hi]
  simp [step_running hb hr, State.runEdge, hv, hh]

/-- R94, R96: where STEP answers, an edge with a handshake takes its decoder and loads its event. -/
theorem step_of_byteStep {s : State} {d : Decoder} {e : Event} (hb : s.booted = true) (hh : s.handshake = true)
    (h : byteStep s.params s.dec s.inputPins.inData = .next (d, e)) :
    step s = .next { s.tick with dec := d, ev := s.ev.load s.inputPins.inData e } := by
  rw [step_handshake hb hh, ← instrFor_tick, exec_of_byteStep (s := s.tick) h]
  rfl

/-- R96: an event that becomes pending at an edge is the one STEP emitted on the byte taken there. -/
theorem byteStep_of_new_event {s t : State} (h : step s = .next t) (hv : s.ev.valid = false)
    (ht : t.ev.valid = true) :
    ∃ d e, byteStep s.params s.dec s.inputPins.inData = .next (d, e) ∧
      t = { s.tick with dec := d, ev := s.ev.load s.inputPins.inData e } := by
  rcases step_cases h with ⟨-, rfl⟩ | ⟨-, -, hv', -⟩ | ⟨-, -, hv', -⟩ | ⟨-, -, hx⟩ | ⟨-, -, -, -, rfl⟩
  · simp at ht
  · simp [hv] at hv'
  · simp [hv] at hv'
  · rw [← instrFor_tick] at hx
    exact byteStep_of_exec hx
  · simp [hv] at ht

/-- R48: the kind code 0b01 is ASCII's alone. -/
theorem kindCode_eq_ascii {e : Event} (h : kindCode e = 0b01#2) : ∃ b, e = .ascii b := by
  cases e with
  | ascii b => exact ⟨b, rfl⟩
  | none | frame | nack => simp [kindCode] at h

/-- R64, R73: STEP forwards its own byte as ASCII, and never START_MARKER. -/
theorem byteStep_ascii {P : Params} {d d' : Decoder} {b c : Byte} (h : byteStep P d b = .next (d', .ascii c)) :
    c = b ∧ b ≠ P.startMarker := by
  have hcases := byteStep_cases h
  simp only [reduceCtorEq, and_false, false_or, or_false, Event.ascii.injEq] at hcases
  obtain ⟨-, hne, -, rfl⟩ := hcases
  exact ⟨rfl, hne⟩

/-- R65 to R72: STEP leaves a frame on LENGTH zero or on the LENGTH-th payload byte only. -/
theorem byteStep_leaves_frame {P : Params} {d d' : Decoder} {b : Byte} {e : Event}
    (h : byteStep P d b = .next (d', e)) (hp : d.st = .waitLen ∨ d.st = .waitPayload) (hidle : d'.st = .idle) :
    (d.st = .waitLen ∧ b = 0#8) ∨ (d.st = .waitPayload ∧ d.cnt.toNat + 1 = d.len.toNat) := by
  rcases hp with hp | hp
  · refine .inl ⟨hp, ?_⟩
    rw [byteStep_waitLen h hp] at hidle
    simpa using hidle
  · refine .inr ⟨hp, ?_⟩
    obtain ⟨rfl, -⟩ := byteStep_waitPayload h hp
    simpa using hidle

/-- Settles O7: the branches of the edge in their order; a byte taken is STEP's decoder and its loaded event. -/
theorem eventRegisterFollowsItsPrecedence : Obligations.EventRegisterFollowsItsPrecedence := by
  refine fun s => ⟨fun hr => ⟨_, step_reset hr, rfl⟩, fun hr hb =>
    ⟨fun hv hk hready => ?_, fun hv hk hready => ?_, fun hv hi d e h => ?_, step_idle_pins hb hr⟩⟩
  · rw [step_pending hb hr hv hk, if_pos hready]; rfl
  · rw [step_pending hb hr hv hk, if_neg (by simp [hready])]
  · rw [step_of_byteStep hb ((handshake_iff s).mpr ⟨hr, hi, hv⟩) h, load_eq]

/-- Settles O9: an edge without reset moves the decoder by a STEP only, and a STEP leaves a frame only where it ends. -/
theorem onlyResetAbandonsAFrame : Obligations.OnlyResetAbandonsAFrame := by
  refine ⟨fun s _ hr => ⟨_, step_reset hr, rfl, rfl⟩, fun s t hp h hidle => ?_⟩
  cases hr : s.inputPins.rst with
  | true => exact .inl rfl
  | false =>
    rcases step_dec_cases hr h with hd | ⟨hh, e, hstep⟩
    · rw [← hd, hidle] at hp
      simp at hp
    · exact .inr ⟨hh, byteStep_leaves_frame hstep hp hidle⟩

/-- Settles O48: the marker in IDLE is STEP's silent start of a frame, and a new ASCII event holds the byte STEP forwarded,
which is not the marker. -/
theorem consoleNeverReceivesStartMarker : Obligations.ConsoleNeverReceivesStartMarker := by
  refine ⟨fun s hb hh hp hm => ?_, fun s t hv h ht hk => ?_⟩
  · obtain ⟨-, -, hv⟩ := (handshake_iff s).mp hh
    have hstep := byteStep_idle_marker s.params s.dec hp
    rw [← hm] at hstep
    exact ⟨_, step_of_byteStep hb hh hstep, rfl, hv⟩
  · obtain ⟨d, e, hstep, rfl⟩ := byteStep_of_new_event h hv ht
    have he : e ≠ .none := by rintro rfl; simp [hv] at ht
    simp only [load_eq, if_neg he] at hk ⊢
    obtain ⟨c, rfl⟩ := kindCode_eq_ascii hk
    exact (byteStep_ascii hstep).2

/-- Settles O5: decoding a packed word always selects, and without a handshake no STEP moves the decoder. -/
theorem edgeRunsTheDecodedOperation : Obligations.EdgeRunsTheDecodedOperation := by
  refine ⟨fun s i hb hr hi hready hdec => ?_, fun s t hr hno h => step_dec_of_no_handshake ?_ h hr⟩
  · rw [decode_toNat] at hdec
    cases hdec
    exact step_handshake hb ((handshake_iff_inReady s).mpr ⟨hr, hi, hready⟩)
  · rcases hno with hi | hready
    · simp [State.handshake, hi]
    · simp [State.handshake, hready]

/-- Settles O6: the pin shows the handshake's own `in_ready` once booted. -/
theorem inReadyIsChannelEmptyAndNoReset : Obligations.InReadyIsChannelEmptyAndNoReset :=
  fun s p => ⟨inReady_iff s p, fun hb => if_pos hb⟩

/-- Settles O8: the reset edge is the first branch, before boot and after it. -/
theorem resetEdgeGivesTheResetState : Obligations.ResetEdgeGivesTheResetState :=
  fun _ hr => ⟨_, step_reset hr, rfl, rfl, rfl, rfl, rfl, handshake_of_reset hr⟩

end Sys2Proof.Machine
end

section
/-! SUPPORT. Encoding and decoding (R45): the word of an instruction selects it back, and carries its table row's bits. -/

namespace Sys2Proof

/-- Settles O2: decoding an 11-bit word is selection, which R45's row conditions determine. -/
theorem decodeOfEncodeIsTheInstruction : Obligations.DecodeOfEncodeIsTheInstruction := by
  refine ⟨fun P c i hw hs => ?_, fun P c w hwide => if_neg (by omega)⟩
  rw [Machine.decode_toNat, select_encode hw hs]

/-- Every instruction's word has the bits its row of the opcode table fixes. -/
theorem encode_and_mask (i : Instr) : encode i &&& (tableRow i).mask = (tableRow i).pattern := by
  cases i with
  | idleSom o b => exact Laws.TableRow.idleSom o b
  | idleAscii o b => exact Laws.TableRow.idleAscii o b
  | lenZero o => exact Laws.TableRow.lenZero o
  | lenOvf o b => exact Laws.TableRow.lenOvf o b
  | lenOk o b => exact Laws.TableRow.lenOk o b
  | payStore b => exact Laws.TableRow.payStore b
  | payDiscard b => exact Laws.TableRow.payDiscard b
  | payEndFrame b => exact Laws.TableRow.payEndFrame b
  | payEndBadcs b => exact Laws.TableRow.payEndBadcs b
  | payEndOvf b => exact Laws.TableRow.payEndOvf b
  | st3 o b => exact Laws.TableRow.st3 o b

/-- Settles O4: a word is the word of the instruction it selects. -/
theorem selectedRowMatchesItsWord : Obligations.SelectedRowMatchesItsWord := by
  intro P c w
  obtain ⟨hword, -, -⟩ := select_meetsRow P c w
  have hrow := encode_and_mask (select P c w)
  rwa [hword] at hrow

/-- Settles O1: the eleven words of the vectors are closed cases of the selection. -/
theorem selectionWordsFromTheVectors : Obligations.SelectionWordsFromTheVectors := by
  unfold Obligations.SelectionWordsFromTheVectors
  decide

end Sys2Proof
end

section
/-! SUPPORT. What an operation does to the machine beside its own registers: the one buffer cell it stores to (R25), and
the fields it leaves (R18, R63 to R73). -/

namespace Sys2Proof.Machine

/-- R18, R19: an operation writes the decoder and the event register only. -/
theorem exec_frame {i : Instr} {s t : State} (h : exec i s = .next t) : t = { s with dec := t.dec, ev := t.ev } := by
  rw [exec_relocate] at h
  split at h <;> cases h
  rfl

/-- R25: the byte that an operation stores in the buffer; three operations store one. -/
def storedByte : Instr → Option Byte
  | .payStore b | .payEndFrame b | .payEndBadcs b => some b
  | _ => none

theorem storedByte_eq_some_iff (i : Instr) (b : Byte) :
    storedByte i = some b ↔ i = .payStore b ∨ i = .payEndFrame b ∨ i = .payEndBadcs b := by
  cases i <;> simp [storedByte]

/-- Log entry 7: with no cell at the counter, a storing operation faults on that index. -/
theorem exec_store_outside {i : Instr} {b : Byte} {s : State} (hi : storedByte i = some b)
    (hr : ¬ s.dec.cnt.toNat < s.params.lenMax.toNat) : exec i s = .fault (.bufferRange s.dec.cnt.toNat) := by
  rcases (storedByte_eq_some_iff i b).mp hi with rfl | rfl | rfl
  · simp [exec, execPayStore, storePayload_error s b hr]
  · simp [exec, execPayEndFrame, storePayload_error s b hr]
  · simp [exec, execPayEndBadcs, storePayload_error s b hr]

/-- A storing operation answers only where the cell at the counter exists. -/
theorem store_in_range {i : Instr} {b : Byte} {s t : State} (hi : storedByte i = some b) (h : exec i s = .next t) :
    s.dec.cnt.toNat < s.params.lenMax.toNat := by
  by_contra hr
  simp [exec_store_outside hi hr] at h

/-- R25: a storing operation writes its byte at the counter before the increment. -/
theorem exec_stores {i : Instr} {b : Byte} {s t : State} (hi : storedByte i = some b) (h : exec i s = .next t) :
    t.dec.buf = Memory.write s.dec.buf s.dec.cnt.toNat b := by
  have hr := store_in_range hi h
  rcases (storedByte_eq_some_iff i b).mp hi with rfl | rfl | rfl
  · simp only [exec, execPayStore, storePayload_ok s b hr] at h; cases h; rfl
  · simp only [exec, execPayEndFrame, storePayload_ok s b hr] at h; cases h; rfl
  · simp only [exec, execPayEndBadcs, storePayload_ok s b hr] at h; cases h; rfl

/-- R25: every other operation leaves the buffer. -/
theorem exec_keeps_buf {i : Instr} {s t : State} (hi : storedByte i = none) (h : exec i s = .next t) :
    t.dec.buf = s.dec.buf := by
  cases i with
  | payStore | payEndFrame | payEndBadcs => simp [storedByte] at hi
  | st3 o b =>
    obtain ⟨-, hmarker, hother⟩ := st3RecoversInOneStep s o b
    by_cases hb : b = s.params.startMarker
    · rw [(hmarker hb).2] at h; cases h; rfl
    · rw [hother hb] at h; cases h; rfl
  | idleSom | idleAscii | lenZero | lenOvf | lenOk | payDiscard | payEndOvf => cases h; rfl

/-- Settles O22: the three storing operations stop in the same store. -/
theorem storeOutsideTheBufferFaults : Obligations.StoreOutsideTheBufferFaults :=
  fun _ _ hr => ⟨exec_store_outside rfl (by omega), exec_store_outside rfl (by omega), exec_store_outside rfl (by omega)⟩

/-- Settles O24: an operation that is none of the three stores no byte. -/
theorem nonStoringOperationsKeepTheBuffer : Obligations.NonStoringOperationsKeepTheBuffer := by
  intro i s t hi h a
  have hnone : storedByte i = none := by
    rw [Option.eq_none_iff_forall_ne_some]
    intro b hb
    simpa [hi b] using (storedByte_eq_some_iff i b).mp hb
  rw [exec_keeps_buf hnone h]

/-- Settles O25: the buffer afterwards is one write at the counter, read back. -/
theorem storingOperationsWriteOneCell : Obligations.StoringOperationsWriteOneCell := by
  intro i b s t hi h
  rw [exec_stores ((storedByte_eq_some_iff i b).mpr hi) h]
  exact ⟨read_write_same _ _ b, fun a ha => read_write_other _ b ha⟩

/-- Settles O41: a write keeps the form, and an operation writes below LEN_MAX or not at all. -/
theorem operationsKeepTheBufferCanonical : Obligations.OperationsKeepTheBufferCanonical := by
  intro i s t h
  rw [exec_frame h]
  cases hi : storedByte i with
  | none => rw [exec_keeps_buf hi h]; exact ⟨id, id⟩
  | some b =>
    rw [exec_stores hi h]
    exact ⟨wf_write _ _ b, below_write _ _ _ b (store_in_range hi h)⟩

/-- Every edge leaves the parameters: an operation leaves them, and so do reset, retirement and the edge's bookkeeping. -/
theorem step_params {s t : State} (h : step s = .next t) : t.params = s.params := by
  rcases step_cases h with ⟨-, rfl⟩ | ⟨-, -, -, -, -, rfl⟩ | ⟨-, -, -, -, -, rfl⟩ | ⟨-, -, hx⟩ | ⟨-, -, -, -, rfl⟩
  · rfl
  · rfl
  · rfl
  · rw [exec_frame hx]; rfl
  · rfl

/-- Settles O23: operations write `dec` and `ev` alone. -/
theorem parametersAreStatic : Obligations.ParametersAreStatic := by
  refine ⟨fun i s t h => ?_, fun s t => step_params⟩
  rw [exec_frame h]
  exact ⟨rfl, rfl, rfl, rfl⟩

/-- Settles O26: read off the equations of the three operations. -/
theorem idleOperationsFrame : Obligations.IdleOperationsFrame := by
  refine fun s t o b => ⟨fun h => ?_, fun h => ?_, fun h => ?_⟩
  · rw [(idleSomBeginsAFrame s o b).2] at h; cases h; exact ⟨rfl, rfl, rfl, rfl⟩
  · rw [(idleAsciiForwardsTheByte s o b).2] at h; cases h; rfl
  · obtain ⟨-, hmarker, hother⟩ := st3RecoversInOneStep s o b
    by_cases hb : b = s.params.startMarker
    · rw [(hmarker hb).2] at h; cases h; exact ⟨rfl, rfl, rfl, fun _ => rfl, fun hne => absurd hb hne⟩
    · rw [hother hb] at h; cases h; exact ⟨rfl, rfl, rfl, fun heq => absurd heq hb, fun _ => ⟨rfl, rfl⟩⟩

/-- Settles O27: read off the equations of the three operations. -/
theorem lengthOperationsFrame : Obligations.LengthOperationsFrame := by
  refine fun s t o b => ⟨fun h => ?_, fun h => ?_, fun h => ?_⟩
  · rw [(lenZeroRejectsTheFrame s o).2] at h; cases h; exact ⟨rfl, rfl⟩
  · rw [(lenOvfEntersDiscardMode s o b).2] at h; cases h; exact ⟨rfl, rfl⟩
  · rw [(lenOkAwaitsThePayload s o b).2] at h; cases h; exact ⟨rfl, rfl⟩

/-- Settles O28: read off the equations of the five operations, the storing ones where their cell exists. -/
theorem payloadOperationsFrame : Obligations.PayloadOperationsFrame := by
  rintro i b s t (rfl | rfl | rfl | rfl | rfl) h
  · obtain ⟨m, heq, -⟩ := (payStoreStoresFoldsAndCounts s b).2 (store_in_range rfl h)
    rw [heq] at h; cases h; exact ⟨rfl, rfl, rfl, fun _ => ⟨rfl, rfl⟩⟩
  · rw [(payDiscardFoldsAndCounts s b).2] at h; cases h; exact ⟨rfl, rfl, rfl, fun _ => ⟨rfl, rfl⟩⟩
  · obtain ⟨m, heq, -⟩ := (payEndFrameHandsTheFrameOver s b).2 (store_in_range rfl h)
    rw [heq] at h; cases h; exact ⟨rfl, rfl, rfl, by simp⟩
  · obtain ⟨m, heq, -⟩ := (payEndBadcsRejectsTheFrame s b).2 (store_in_range rfl h)
    rw [heq] at h; cases h; exact ⟨rfl, rfl, rfl, by simp⟩
  · rw [(payEndOvfRejectsTheFrame s b).2] at h; cases h; exact ⟨rfl, rfl, rfl, by simp⟩

end Sys2Proof.Machine
end

section
/-! SUPPORT. The invariant through a step and an edge (R21), and what a pending event says (R48 to R50, R79 to R83). -/

namespace Sys2Proof.Machine

/-- In IDLE the invariant asks for the buffer's form only. -/
theorem inv_of_idle {P : Params} {d : Decoder} (hp : d.st = .idle) (hwf : Memory.wf d.buf = true)
    (hin : Memory.below P.lenMax.toNat d.buf = true) : d.Inv P := by
  constructor <;> simp [hp, hwf, hin]

/-- With no event pending there is nothing to explain. -/
theorem eventInv_of_not_valid {P : Params} {d : Decoder} {r : EventReg} (hv : r.valid = false) : EventInv P d r := by
  constructor <;> simp [hv]

/-- A legal machine without a pending event, from a legal decoder. -/
theorem inv_of_not_valid {s : State} (hb : s.booted = true) (hp : s.params.legal = true) (hd : s.dec.Inv s.params)
    (hv : s.ev.valid = false) : s.Inv :=
  ⟨hb, hp, hd, eventInv_of_not_valid hv⟩

/-- Settles O37: the reset state is in IDLE with an empty buffer and no event. -/
theorem resetStateIsLegal : Obligations.ResetStateIsLegal := by
  have hreset (P : Params) (hP : P.legal = true) : (State.resetWith P).Inv :=
    inv_of_not_valid rfl hP (inv_of_idle rfl rfl rfl) rfl
  exact ⟨hreset, hreset Config.instantiation rfl⟩

/-- R90: a reset edge leads to a legal state, whatever the free values are. -/
theorem inv_resetEdge {s : State} (hP : s.params.legal = true) : s.tick.resetEdge.Inv :=
  inv_of_not_valid rfl hP (inv_of_idle rfl rfl rfl) rfl

/-- R25: a step keeps the form of a legal decoder's buffer. -/
theorem byteStep_buf_wf {P : Params} {d d' : Decoder} {b : Byte} {e : Event} (hd : d.Inv P)
    (h : byteStep P d b = .next (d', e)) :
    Memory.wf d'.buf = true ∧ Memory.below P.lenMax.toNat d'.buf = true := by
  rw [byteStep_buf h]
  split
  · next hw =>
    obtain ⟨hcnt, hlen⟩ := storeIndex_bounds hd hw.1 hw.2
    exact ⟨wf_write _ _ b hd.canonical, below_write _ _ _ b (by omega) hd.within⟩
  · exact ⟨hd.canonical, hd.within⟩

/-- R21 item 3, the sum of the stored bytes after one more of them. -/
theorem frameSum_afterPayload {P : Params} {d : Decoder} (hd : d.Inv P) (hp : d.st = .waitPayload) (ho : d.ovf = false)
    (b : Byte) : (d.afterPayload b).frameSum (d.cnt.toNat + 1) = some (d.acc + b) := by
  obtain ⟨-, hsum⟩ := hd.stored hp ho
  exact frameSum_write d b _ _ hsum _ (by simp [Decoder.afterPayload, ho]) rfl

/-- R63, R21 items 2 and 5: START_MARKER leads to a legal WAIT_LEN. -/
theorem inv_of_marker {P : Params} {d : Decoder} (hd : d.Inv P) :
    ({ d with som := P.startMarker, acc := 0#8, st := .waitLen } : Decoder).Inv P := by
  constructor <;> simp [hd.canonical, hd.within]

/-- R66, R67, R21 items 3 to 5: a LENGTH that is not 0 leads to a legal WAIT_PAYLOAD with no byte taken. -/
theorem inv_of_length {P : Params} {d : Decoder} (hd : d.Inv P) (hp : d.st = .waitLen) {b : Byte} (hb : b ≠ 0#8) :
    ({ d.takeLength b (decide (P.lenMax.toNat < b.toNat)) with st := .waitPayload } : Decoder).Inv P := by
  obtain ⟨hacc, hsom⟩ := hd.length hp
  have hpos := one_le_of_ne_zero b hb
  refine ⟨by simp, by simp, fun _ => ⟨hpos, hpos, hsom⟩, fun _ ho => ⟨Nat.not_lt.mp (of_decide_eq_false ho), ?_⟩,
    fun _ ho => of_decide_eq_true ho, hd.canonical, hd.within⟩
  simp [Decoder.frameSum, csSum_cons, hacc]

/-- R68, R69, R21 items 3 to 5: a payload byte before the last one keeps WAIT_PAYLOAD legal. -/
theorem inv_of_payload {P : Params} {d : Decoder} (hd : d.Inv P) (hp : d.st = .waitPayload)
    (hmore : d.cnt.toNat + 1 ≠ d.len.toNat) {b : Byte} (hwf : Memory.wf (d.afterPayload b).buf = true)
    (hin : Memory.below P.lenMax.toNat (d.afterPayload b).buf = true) : (d.afterPayload b).Inv P := by
  obtain ⟨hpos, hlt, hsom⟩ := hd.payload hp
  have hcnt : (d.afterPayload b).cnt.toNat = d.cnt.toNat + 1 := toNat_count _ _ hlt
  have hst : (d.afterPayload b).st = .waitPayload := if_neg hmore
  refine ⟨by simp [hst], by simp [hst], fun _ => ⟨hpos, ?_, hsom⟩, fun _ ho => ⟨(hd.stored hp ho).1, ?_⟩,
    fun _ => hd.discarded hp, hwf, hin⟩
  · rw [hcnt]
    show d.cnt.toNat + 1 < d.len.toNat
    omega
  · rw [hcnt]
    exact frameSum_afterPayload hd hp ho b

/-- R21: a step from a legal decoder leads to a legal one. -/
theorem byteStep_keeps_inv {P : Params} {d d' : Decoder} {b : Byte} {e : Event} (hd : d.Inv P)
    (h : byteStep P d b = .next (d', e)) : d'.Inv P := by
  obtain ⟨hwf, hin⟩ := byteStep_buf_wf hd h
  cases hp : d.st with
  | unused => exact absurd hp hd.phase
  | idle =>
    rw [byteStep_outside_eq P b (.inl hp)] at h
    by_cases hb : b = P.startMarker
    · rw [if_pos hb] at h; cases h; exact hb ▸ inv_of_marker hd
    · rw [if_neg hb] at h; cases h; exact inv_of_idle rfl hwf hin
  | waitLen =>
    rw [byteStep_waitLen_eq P b hp] at h
    cases h
    by_cases hb : b = 0#8
    · exact inv_of_idle (if_pos hb) hwf hin
    · simpa only [if_neg hb] using inv_of_length hd hp hb
  | waitPayload =>
    obtain ⟨rfl, -⟩ := byteStep_waitPayload_inv h hp
    by_cases hlast : d.cnt.toNat + 1 = d.len.toNat
    · exact inv_of_idle (if_pos hlast) hwf hin
    · exact inv_of_payload hd hp hlast hwf hin

/-! What the event of a step says about the decoder after it. -/

/-- R64, R73: ASCII on another byte than START_MARKER. -/
theorem eventInv_ascii {P : Params} {d : Decoder} {b : Byte} (hidle : d.st = .idle) (hb : b ≠ P.startMarker) :
    EventInv P d { valid := true, kind := 0b01#2, cause := 0b00#2, data := b } := by
  constructor <;> simp [hidle, hb]

/-- R80: NACK(LEN_ZERO). -/
theorem eventInv_lenZero {P : Params} {d : Decoder} (hidle : d.st = .idle) (hlen : d.len = 0#8) :
    EventInv P d { valid := true, kind := 0b11#2, cause := 0b10#2, data := 0#8 } := by
  constructor <;> simp [hidle, hlen]

/-- R81: NACK(LEN_OVERFLOW). -/
theorem eventInv_lenOverflow {P : Params} {d : Decoder} {b : Byte} (hidle : d.st = .idle)
    (hlen : P.lenMax.toNat < d.len.toNat) (hcnt : d.cnt = d.len) :
    EventInv P d { valid := true, kind := 0b11#2, cause := 0b11#2, data := b } := by
  constructor <;> simp [hidle, hlen, hcnt]

/-- R27, R70, R71: a whole frame within the capacity is stored, `b` its last byte and its sum in `acc`. -/
structure Decoder.WholeFrame (P : Params) (d : Decoder) (b : Byte) : Prop where
  idle : d.st = .idle
  pos  : 1 ≤ d.len.toNat
  fits : d.len.toNat ≤ P.lenMax.toNat
  cnt  : d.cnt = d.len
  som  : d.som = P.startMarker
  sum  : d.frameSum d.len.toNat = some d.acc
  last : Memory.read d.buf (d.len.toNat - 1) = some b

/-- R70: FRAME on a whole frame whose sum is 0. -/
theorem Decoder.WholeFrame.eventInv_frame {P : Params} {d : Decoder} {b : Byte} (h : d.WholeFrame P b)
    (hacc : d.acc = 0#8) : EventInv P d { valid := true, kind := 0b10#2, cause := 0b00#2, data := b } := by
  refine ⟨fun _ => h.idle, by simp, by simp, by simp, fun _ _ => ?_, by simp, by simp, by simp⟩
  exact ⟨h.pos, h.fits, h.cnt, h.som, hacc ▸ h.sum, h.last⟩

/-- R71, R79: NACK(CHECKSUM) on a whole frame whose sum is not 0. -/
theorem Decoder.WholeFrame.eventInv_checksum {P : Params} {d : Decoder} {b : Byte} (h : d.WholeFrame P b)
    (hacc : d.acc ≠ 0#8) : EventInv P d { valid := true, kind := 0b11#2, cause := 0b01#2, data := b } := by
  refine ⟨fun _ => h.idle, by simp, by simp, by simp, by simp, fun _ _ _ => ?_, by simp, by simp⟩
  exact ⟨h.pos, h.fits, h.cnt, hacc, h.sum, h.last⟩

/-- R70, R71: the last byte of a frame within the capacity completes it in the buffer. -/
theorem wholeFrame_afterPayload {P : Params} {d : Decoder} (hd : d.Inv P) (hp : d.st = .waitPayload)
    (ho : d.ovf = false) (hlast : d.cnt.toNat + 1 = d.len.toNat) (b : Byte) : (d.afterPayload b).WholeFrame P b := by
  obtain ⟨hpos, -, hsom⟩ := hd.payload hp
  obtain ⟨hfits, -⟩ := hd.stored hp ho
  refine ⟨if_pos hlast, hpos, hfits, count_last _ _ hlast, hsom, ?_, ?_⟩
  · exact hlast ▸ frameSum_afterPayload hd hp ho b
  · show Memory.read (d.afterPayload b).buf (d.len.toNat - 1) = some b
    rw [← hlast, Nat.add_sub_cancel]
    simp [Decoder.afterPayload, ho]

/-- R79, R81, R27: the event of a payload byte says what the decoder holds after it. -/
theorem eventInv_payloadEvent {P : Params} {d : Decoder} (hd : d.Inv P) (hp : d.st = .waitPayload) {r : EventReg}
    (hv : r.valid = false) (b : Byte) : EventInv P (d.afterPayload b) (r.load b (d.payloadEvent b)) := by
  unfold Decoder.payloadEvent
  by_cases hlast : d.cnt.toNat + 1 = d.len.toNat
  · rw [if_pos hlast]
    cases ho : d.ovf with
    | true => exact eventInv_lenOverflow (if_pos hlast) (hd.discarded hp ho) (count_last _ _ hlast)
    | false =>
      have hwhole := wholeFrame_afterPayload hd hp ho hlast b
      by_cases hsum : d.acc + b = 0#8
      · simpa [hsum] using hwhole.eventInv_frame hsum
      · simpa [hsum, causeBits] using hwhole.eventInv_checksum hsum
  · rw [if_neg hlast]
    exact eventInv_of_not_valid hv

/-- R48, R49: the event a step loads into the empty channel says what the decoder holds after the step. -/
theorem byteStep_explains_event {P : Params} {d d' : Decoder} {b : Byte} {e : Event} (hd : d.Inv P) {r : EventReg}
    (hv : r.valid = false) (h : byteStep P d b = .next (d', e)) : EventInv P d' (r.load b e) := by
  cases hp : d.st with
  | unused => exact absurd hp hd.phase
  | idle =>
    rw [byteStep_outside_eq P b (.inl hp)] at h
    by_cases hb : b = P.startMarker
    · rw [if_pos hb] at h; cases h; exact eventInv_of_not_valid hv
    · rw [if_neg hb] at h; cases h; exact eventInv_ascii rfl hb
  | waitLen =>
    rw [byteStep_waitLen_eq P b hp] at h
    cases h
    by_cases hb : b = 0#8
    · subst hb; exact eventInv_lenZero rfl rfl
    · exact eventInv_of_not_valid (by simp [hb, hv])
  | waitPayload =>
    obtain ⟨rfl, rfl⟩ := byteStep_waitPayload_inv h hp
    exact eventInv_payloadEvent hd hp hv b

/-- R94, R96: an edge that takes a byte does so by STEP and loads its event. -/
theorem byteStep_of_handshake {s t : State} (hh : s.handshake = true) (h : step s = .next t) :
    ∃ d e, byteStep s.params s.dec s.inputPins.inData = .next (d, e) ∧
      t = { s.tick with dec := d, ev := s.ev.load s.inputPins.inData e } := by
  obtain ⟨hr, hi, hv⟩ := (handshake_iff s).mp hh
  rcases step_cases h with ⟨hr', -⟩ | ⟨-, -, hv', -⟩ | ⟨-, -, hv', -⟩ | ⟨-, -, hx⟩ | ⟨-, -, -, hi', -⟩
  · simp [hr] at hr'
  · simp [hv] at hv'
  · simp [hv] at hv'
  · rw [← instrFor_tick] at hx
    exact byteStep_of_exec hx
  · simp [hi] at hi'

/-- Settles O38: an edge resets, retires, holds, or takes one byte by STEP, and each of these leads to a legal state. -/
theorem everyEdgeKeepsTheInvariant : Obligations.EveryEdgeKeepsTheInvariant := by
  rintro s t ⟨hb, hP, hd, hev⟩ h
  rcases step_cases h with ⟨-, rfl⟩ | ⟨-, -, -, -, -, rfl⟩ | ⟨-, -, -, -, -, rfl⟩ | ⟨hh, -, -⟩ | ⟨-, -, -, -, rfl⟩
  · exact inv_resetEdge hP
  · exact inv_of_not_valid hb hP hd rfl
  · exact ⟨hb, hP, hd, hev⟩
  · obtain ⟨-, -, hv⟩ := (handshake_iff s).mp hh
    obtain ⟨d, e, hstep, rfl⟩ := byteStep_of_handshake hh h
    exact ⟨hb, hP, byteStep_keeps_inv hd hstep, byteStep_explains_event hd hv hstep⟩
  · exact ⟨hb, hP, hd, hev⟩

end Sys2Proof.Machine
end

section
/-! SUPPORT. The stops of an edge, and the output pins. -/

namespace Sys2Proof.Machine

/-- R93, X2: before the first reset edge an edge without reset is refused. -/
theorem step_before_boot {s : State} (hb : s.booted = false) (hr : s.inputPins.rst = false) :
    step s = .refused .beforeFirstReset := by
  simp [step, State.clockEdge, hb, hr]

/-- X5: the reserved event kind is pending. -/
def State.ReservedPending (s : State) : Prop := s.ev.valid = true ∧ s.ev.kind = 0b00#2

/-- Log entry 7: the byte taken at this edge is to be stored, and the buffer has no cell at the counter. -/
def State.StoresOutside (s : State) : Prop :=
  s.handshake = true ∧ s.dec.st = .waitPayload ∧ s.dec.ovf = false ∧ s.params.lenMax.toNat ≤ s.dec.storeIndex

/-- X5: the reserved kind stops the edge. -/
theorem step_reserved {s : State} (hb : s.booted = true) (hr : s.inputPins.rst = false) (h : s.ReservedPending) :
    step s = .fault .reservedEventKind := by
  rw [step_running hb hr, State.runEdge, if_pos h.1, if_pos h.2]

/-- A store outside the buffer stops the edge. -/
theorem step_stores_outside {s : State} (hb : s.booted = true) (h : s.StoresOutside) :
    step s = .fault (.bufferRange s.dec.storeIndex) := by
  obtain ⟨hh, hp, ho, hr⟩ := h
  rw [step_handshake hb hh, ← instrFor_tick]
  exact exec_of_byteStep_fault (s := s.tick) (byteStep_store_outside _ _ _ hp ho (Nat.not_lt.mpr hr))

/-- STEP answers unless it stores outside the buffer. -/
theorem byteStep_answers (P : Params) (d : Decoder) (b : Byte)
    (h : d.st = .waitPayload → d.ovf = false → d.cnt.toNat < P.lenMax.toNat) :
    ∃ d' e, byteStep P d b = .next (d', e) := by
  cases hp : d.st with
  | idle => exact ⟨_, _, byteStep_outside_eq P b (.inl hp)⟩
  | waitLen => exact ⟨_, _, byteStep_waitLen_eq P b hp⟩
  | waitPayload => exact ⟨_, _, byteStep_waitPayload_eq P b hp (h hp)⟩
  | unused => exact ⟨_, _, byteStep_outside_eq P b (.inr hp)⟩

/-- R96: after boot, an edge without reset that meets neither stop completes. -/
theorem step_completes_of_no_stop {s : State} (hb : s.booted = true) (hr : s.inputPins.rst = false)
    (hk : ¬ s.ReservedPending) (ho : ¬ s.StoresOutside) : Completes (step s) := by
  cases hv : s.ev.valid with
  | true =>
    rw [step_pending hb hr hv fun hkind => hk ⟨hv, hkind⟩]
    split <;> exact ⟨_, rfl⟩
  | false =>
    cases hi : s.inputPins.inValid with
    | false => exact ⟨_, step_idle_pins hb hr hv hi⟩
    | true =>
      have hh := (handshake_iff s).mpr ⟨hr, hi, hv⟩
      obtain ⟨d, e, hstep⟩ := byteStep_answers s.params s.dec s.inputPins.inData fun hp hovf =>
        Nat.lt_of_not_le fun hle => ho ⟨hh, hp, hovf, hle⟩
      exact ⟨_, step_of_byteStep hb hh hstep⟩

/-- Every edge completes or makes one of three stops. -/
theorem step_outcome (s : State) :
    Completes (step s) ∨
    (s.inputPins.rst = false ∧ s.booted = false ∧ step s = .refused .beforeFirstReset) ∨
    (s.inputPins.rst = false ∧ s.booted = true ∧ s.ReservedPending ∧ step s = .fault .reservedEventKind) ∨
    (s.inputPins.rst = false ∧ s.booted = true ∧ s.StoresOutside ∧ step s = .fault (.bufferRange s.dec.storeIndex)) := by
  cases hr : s.inputPins.rst with
  | true => exact .inl ⟨_, step_reset hr⟩
  | false =>
    cases hb : s.booted with
    | false => exact .inr (.inl ⟨rfl, rfl, step_before_boot hb hr⟩)
    | true =>
      by_cases hk : s.ReservedPending
      · exact .inr (.inr (.inl ⟨rfl, rfl, hk, step_reserved hb hr hk⟩))
      · by_cases ho : s.StoresOutside
        · exact .inr (.inr (.inr ⟨rfl, rfl, ho, step_stores_outside hb ho⟩))
        · exact .inl (step_completes_of_no_stop hb hr hk ho)

/-- Settles O10: an edge that does not complete makes one of the three stops, each under its own condition. -/
theorem edgeStopsOnlyByName : Obligations.EdgeStopsOnlyByName := by
  refine ⟨fun s r => ⟨fun h => ?_, ?_⟩, fun s f => ⟨fun h => ?_, ?_⟩⟩
  · rcases step_outcome s with ⟨t, ht⟩ | ⟨hr, hb, hs⟩ | ⟨-, -, -, hs⟩ | ⟨-, -, -, hs⟩
    · simp [ht] at h
    · rw [hs] at h; cases h; exact ⟨rfl, hb, hr⟩
    · simp [hs] at h
    · simp [hs] at h
  · rintro ⟨rfl, hb, hr⟩
    exact step_before_boot hb hr
  · rcases step_outcome s with ⟨t, ht⟩ | ⟨-, -, hs⟩ | ⟨hr, hb, hk, hs⟩ | ⟨hr, hb, ho, hs⟩
    · simp [ht] at h
    · simp [hs] at h
    · rw [hs] at h; cases h; exact ⟨hr, hb, .inl ⟨rfl, hk⟩⟩
    · rw [hs] at h; cases h; exact ⟨hr, hb, .inr ⟨rfl, ho⟩⟩
  · rintro ⟨hr, hb, ⟨rfl, hk⟩ | ⟨rfl, ho⟩⟩
    · exact step_reserved hb hr hk
    · exact step_stores_outside hb ho

/-- Settles O58: once booted the windows are the event register's own valid bit and kind. -/
theorem outputPinsShowTheirRegisters : Obligations.OutputPinsShowTheirRegisters := by
  intro s p hb
  have hwindow := eventWindow_of_booted s hb
  refine ⟨if_pos hb, if_pos hb, rfl, rfl, rfl, fun hv => ?_, fun hv hk => ?_⟩
  · simp [State.outputs, hwindow, hv]
  · have hframe := (frameWindow_iff s).mpr ⟨hb, hv, hk⟩
    exact ⟨frameSom_of_window s hframe, frameLen_of_window s hframe, fun x => rdData_of_window s p.rdAddr x hframe⟩

end Sys2Proof.Machine
end

section
/-! SUPPORT. Wire frames (R35 to R44): their length and their LENGTH byte. -/

namespace Sys2Proof.Machine

/-- R35: a frame is its body between two bytes of head and one of checksum. -/
theorem length_wireFrame (P : Params) (body : List Byte) : (wireFrame P body).length = body.length + 1 + 2 := by
  simp [wireFrame]

/-- R36: LENGTH counts the body and the checksum. -/
theorem wireFrame_lengthByte (P : Params) (body : List Byte) :
    (wireFrame P body)[1]? = some (BitVec.ofNat 8 (body.length + 1)) := rfl

/-- R44: the frame of a body of one byte. -/
theorem wireFrame_single (P : Params) (c : Byte) :
    wireFrame P [c] = [P.startMarker, 0x02#8, c, 0#8 - (2#8 + c)] := by
  simp [wireFrame, wireLength, csGen, csSum_cons]

/-- Settles O34: both frames have the one body byte CMD. -/
theorem ackAndNackFramesOnTheWire : Obligations.AckAndNackFramesOnTheWire :=
  fun P C => ⟨wireFrame_single P C.ack, wireFrame_single P C.nack⟩

/-- R40, R41: a frame with a command, a code and `n` data bytes has LENGTH 3 + n. -/
theorem wireFrame_command (P : Params) (cmd code : Byte) (data : List Byte) :
    (wireFrame P (cmd :: code :: data))[1]? = some (BitVec.ofNat 8 (3 + data.length)) ∧
      (wireFrame P (cmd :: code :: data)).length = 3 + data.length + 2 := by
  have hlen : (cmd :: code :: data).length + 1 = 3 + data.length := by simp only [List.length_cons]; omega
  rw [wireFrame_lengthByte, length_wireFrame, hlen]
  exact ⟨rfl, rfl⟩

/-- Settles O35: the request to read and the response to a write carry no data, the other two all of it. -/
theorem commandFramesHaveTheirLengths : Obligations.CommandFramesHaveTheirLengths := by
  intro P C code data _
  obtain ⟨hreq, hreqLen⟩ := wireFrame_command P C.read code []
  obtain ⟨hresp, hrespLen⟩ := wireFrame_command P C.read code data
  obtain ⟨hset, hsetLen⟩ := wireFrame_command P C.write code data
  obtain ⟨hdone, hdoneLen⟩ := wireFrame_command P C.write code []
  exact ⟨hreq, hreqLen, hresp, hrespLen, hset, hsetLen, hdone, hdoneLen⟩

end Sys2Proof.Machine
end

section
/-! SUPPORT. The event of a step, and the counter against the length (R12, R21 item 6, R48, R79 to R82). -/

namespace Sys2Proof.Machine

/-- Settles O46: STEP's equation in each state names its event; the payload byte's is chosen by `cnt`, `ovf` and the sum. -/
theorem eventOfEachStep : Obligations.EventOfEachStep := by
  intro P d d' b e h
  cases hp : d.st with
  | idle | unused =>
    rw [byteStep_outside_eq P b (by simp [hp])] at h
    by_cases hb : b = P.startMarker
    · rw [if_pos hb] at h; cases h; simp [hb]
    · rw [if_neg hb] at h; cases h; simpa [hb] using fun c => eq_comm
  | waitLen =>
    rw [byteStep_waitLen_eq P b hp] at h
    cases h
    by_cases hb : b = 0#8 <;> simp [hb]
  | waitPayload =>
    obtain ⟨rfl, rfl⟩ := byteStep_waitPayload_inv h hp
    by_cases hlast : d.cnt.toNat + 1 = d.len.toNat
    · cases ho : d.ovf with
      | true => simp [Decoder.payloadEvent, Decoder.afterPayload, hlast, ho]
      | false => by_cases hsum : d.acc + b = 0#8 <;> simp [Decoder.payloadEvent, Decoder.afterPayload, hlast, ho, hsum]
    · simp [Decoder.payloadEvent, hlast]

/-- R67: LENGTH clears the counter. -/
theorem cnt_of_length {P : Params} {d d' : Decoder} {b : Byte} {e : Event} (h : byteStep P d b = .next (d', e))
    (hp : d.st = .waitLen) : d'.cnt = 0#8 ∧ d'.len = b := by
  rw [byteStep_waitLen h hp]
  exact ⟨rfl, rfl⟩

/-- R21 item 6: a step from a legal decoder keeps the counter at most the length. -/
theorem byteStep_cnt_le_len {P : Params} {d d' : Decoder} {b : Byte} {e : Event} (hd : d.Inv P)
    (hle : d.cnt.toNat ≤ d.len.toNat) (h : byteStep P d b = .next (d', e)) : d'.cnt.toNat ≤ d'.len.toNat := by
  obtain ⟨-, hlen, hcnt, hpay, -⟩ := eachRegisterHasItsWriters P d d' b e h
  cases hp : d.st with
  | idle | unused => simpa [hlen, hcnt, hp] using hle
  | waitLen => simp [hcnt, hp]
  | waitPayload => exact (hpay hp (hd.payload hp).2.1).2

/-- R12: a step that ends a frame leaves the counter at the length. -/
theorem cnt_eq_len_of_frame_end {P : Params} {d d' : Decoder} {b : Byte} {e : Event}
    (h : byteStep P d b = .next (d', e)) (hp : d.st = .waitLen ∨ d.st = .waitPayload) (hidle : d'.st = .idle) :
    d'.cnt = d'.len := by
  rcases byteStep_leaves_frame h hp hidle with ⟨hp, rfl⟩ | ⟨hp, hlast⟩
  · obtain ⟨hcnt, hlen⟩ := cnt_of_length h hp
    rw [hcnt, hlen]
  · obtain ⟨rfl, -⟩ := byteStep_waitPayload_inv h hp
    exact count_last _ _ hlast

/-- Settles O40: every edge but a reset edge leaves the decoder or moves it by one STEP. -/
theorem counterNeverPassesLength : Obligations.CounterNeverPassesLength := by
  refine ⟨fun s t hh hp h => ?_, fun s t hs hr hle h => ?_, fun s t hr hp h hidle => ?_⟩
  · obtain ⟨d, e, hstep, rfl⟩ := byteStep_of_handshake hh h
    obtain ⟨hcnt, -⟩ := cnt_of_length hstep hp
    simp [hcnt]
  · rcases step_dec_cases hr h with hd | ⟨-, e, hstep⟩
    · rwa [hd]
    · exact byteStep_cnt_le_len hs.dec hle hstep
  · rcases step_dec_cases hr h with hd | ⟨-, e, hstep⟩
    · rw [← hd, hidle] at hp
      simp at hp
    · exact cnt_eq_len_of_frame_end hstep hp hidle

end Sys2Proof.Machine
end

section
/-! SUPPORT. What the consumer reads while a FRAME is pending (R26, R27, R31, R50). -/

namespace Sys2Proof.Machine

/-- R50: in a legal state a pending FRAME opens the window. -/
theorem frameWindow_of_inv {s : State} (hs : s.Inv) (hv : s.ev.valid = true) (hk : s.ev.kind = 0b10#2) :
    s.frameWindow = true :=
  (frameWindow_iff s).mpr ⟨hs.booted, hv, hk⟩

/-- R27, R70: the bytes of a pending FRAME stand in the cells below `len`, with a valid checksum after LENGTH. -/
theorem firstBytes_of_pending_frame {s : State} (hs : s.Inv) (hv : s.ev.valid = true) (hk : s.ev.kind = 0b10#2) :
    ∃ ps, Memory.firstBytes s.dec.buf s.dec.len.toNat = some ps ∧ csValid (s.dec.len :: ps) = true := by
  obtain ⟨-, -, -, -, hsum, -⟩ := hs.event.frame hv hk
  obtain ⟨ps, hps, hzero⟩ := Option.map_eq_some_iff.mp hsum
  exact ⟨ps, hps, (csValid_iff _).mpr hzero⟩

/-- R26: in a legal state with a pending FRAME, `rd_data` at an index below `len` is the byte of that cell. -/
theorem read_eq_rdData {s : State} (hs : s.Inv) (hv : s.ev.valid = true) (hk : s.ev.kind = 0b10#2) {a : Byte}
    (ha : a.toNat < s.dec.len.toNat) : Memory.read s.dec.buf a.toNat = some (s.rdData a) := by
  obtain ⟨ps, hps, -⟩ := firstBytes_of_pending_frame hs hv hk
  have hlen := length_firstBytes _ _ _ hps
  have hread : Memory.read s.dec.buf a.toNat = some ps[a.toNat] := by
    rw [read_of_firstBytes _ _ _ hps _ ha, List.getElem?_eq_getElem]
  rw [hread, rdData_of_window s a _ (frameWindow_of_inv hs hv hk) ha hread]

/-- Settles O49: the invariant's cells are what the port reads. -/
theorem pendingFrameIsPresentedWhole : Obligations.PendingFrameIsPresentedWhole := by
  intro s hs hv hk
  have hwindow := frameWindow_of_inv hs hv hk
  obtain ⟨hpos, -, -, hsom, -, hlast⟩ := hs.event.frame hv hk
  obtain ⟨ps, hps, hvalid⟩ := firstBytes_of_pending_frame hs hv hk
  have hlen := length_firstBytes _ _ _ hps
  have hcell := read_of_firstBytes _ _ _ hps
  refine ⟨(frameSom_of_window s hwindow).trans hsom, frameLen_of_window s hwindow, fun a => read_eq_rdData hs hv hk,
    ps, hlen, hvalid, fun a ha => ?_, ?_⟩
  · rw [← hcell _ ha, read_eq_rdData hs hv hk ha]
  · rw [List.getLast?_eq_getElem?, hlen, ← hcell _ (by omega), hlast]

/-- Settles O50: the edge holds the event and the decoder, so the next state is legal with the same cells. -/
theorem frameStaysReadableUntilRetired : Obligations.FrameStaysReadableUntilRetired := by
  intro s t hs hv hk hr hready h
  have ht := everyEdgeKeepsTheInvariant s t hs h
  rw [step_pending hs.booted hr hv (hs.event.kind hv), if_neg (by simp [hready])] at h
  cases h
  have hwindow := frameWindow_of_inv hs hv hk
  have hwindow' := frameWindow_of_inv ht hv hk
  refine ⟨?_, ?_, fun a ha => ?_⟩
  · rw [frameSom_of_window _ hwindow, frameSom_of_window _ hwindow', tick_dec]
  · rw [frameLen_of_window _ hwindow, frameLen_of_window _ hwindow', tick_dec]
  · exact Option.some_injective _ ((read_eq_rdData ht hv hk ha).symm.trans (read_eq_rdData hs hv hk ha))

end Sys2Proof.Machine
end

section
/-! SUPPORT. Frames under way and frames of one byte, fed from IDLE (R59, R100, R103). -/

namespace Sys2Proof.Machine

/-- R69: the bytes of an oversized frame leave the buffer. -/
theorem buf_of_oversized_prefix {P : Params} {d d' : Decoder} {L : Byte} {ps : List Byte} {es : List Event}
    (hd : d.st = .idle) (hlt : ps.length < L.toNat) (hover : P.lenMax.toNat < L.toNat)
    (h : feed P d (P.startMarker :: L :: ps) = .next (d', es)) : d'.buf = d.buf := by
  obtain ⟨d₁, hhead, hst, -, hlen, hcnt, -, hovf, hbuf, -⟩ := feed_head P d L hd (by omega)
  have ho : d₁.ovf = true := hovf.mpr hover
  obtain ⟨d₂, hpay, -, -, -, -, -, -, -, hkeep, -⟩ :=
    feed_payload P ps d₁ hst (by simpa [hlen, hcnt] using hlt) (by simp [ho])
  have hfeed : feed P d (P.startMarker :: L :: ps) = _ := feed_append hhead hpay
  rw [hfeed] at h
  cases h
  exact (hkeep ho).trans hbuf

/-- Settles O51: the run into the frame, which stores nothing if the frame is oversized. -/
theorem partialFrameWaits : Obligations.PartialFrameWaits := by
  intro P d L ps hd hlt
  obtain ⟨d', hfeed, hin, -⟩ := feed_into_frame P hd hlt
  exact ⟨d', hfeed, hin.st, hin.len, hin.cnt, hin.acc, hin.ovf, hin.buf,
    fun hover => buf_of_oversized_prefix hd hlt hover hfeed⟩

/-- R103: with LENGTH 1 the one byte that makes the sum zero is 0xFF. -/
theorem csValid_one_byte_iff (b : Byte) : csValid [1#8, b] = true ↔ b = 0xFF#8 := csValid_concat_iff [1#8] b

/-- Settles O54: LEN_MAX is at least 2, so a frame of LENGTH 1 is stored, and its first payload byte is its last. -/
theorem oneByteFramesAreAccepted : Obligations.OneByteFramesAreAccepted := by
  intro P d b hP hd
  have hmax : 2 ≤ P.lenMax.toNat := of_decide_eq_true hP
  have hfits : (1#8 : Byte).toNat ≤ P.lenMax.toNat := le_trans (by decide) hmax
  obtain ⟨d₁, hfeed, hin, -⟩ := feed_into_frame P (L := 1#8) (ps := []) hd (by decide)
  obtain ⟨hstep, hidle⟩ := hin.byteStep_last rfl b
  have hevent : frameEvent P 1#8 [b] = if b = 0xFF#8 then .frame else .nack .checksum := by
    rw [frameEvent, if_neg (Nat.not_lt.mpr hfits)]
    simp only [csValid_one_byte_iff]
  rw [List.nil_append, hevent] at hstep
  refine ⟨_, feed_concat hfeed hstep, hidle, hin.len, ?_⟩
  have hcnt : d₁.cnt.toNat = 0 := hin.cnt
  simp [Decoder.afterPayload, hin.ovf_eq_false hfits, hcnt]

end Sys2Proof.Machine
end

section
/-! SUPPORT. Two decoders that differ only in what reset leaves unspecified (R20, R23): a relation that every step
keeps. -/

namespace Sys2Proof.Machine

/-- R23: two decoders in the same state that agree on the registers and the cells a frame under way has written, and
whose frame fits the buffer if it is stored. -/
structure Decoder.Agree (P : Params) (d₁ d₂ : Decoder) : Prop where
  phase   : d₁.st = d₂.st
  used    : d₁.st ≠ .unused
  frame   : d₁.st ≠ .idle → d₁.som = d₂.som ∧ d₁.acc = d₂.acc
  payload : d₁.st = .waitPayload → d₁.len = d₂.len ∧ d₁.cnt = d₂.cnt ∧ d₁.ovf = d₂.ovf
  room    : d₁.st = .waitPayload → d₁.cnt.toNat < d₁.len.toNat ∧ (d₁.ovf = false → d₁.len.toNat ≤ P.lenMax.toNat)
  stored  : d₁.st = .waitPayload → d₁.ovf = false →
    ∀ k, k < d₁.cnt.toNat → Memory.read d₁.buf k = Memory.read d₂.buf k

/-- In IDLE nothing else need agree. -/
theorem agree_of_idle {P : Params} {d₁ d₂ : Decoder} (h₁ : d₁.st = .idle) (h₂ : d₂.st = .idle) : d₁.Agree P d₂ := by
  constructor <;> simp [h₁, h₂]

/-- R26, R27: two decoders that show the consumer the same frame. -/
def Decoder.SameFrame (d₁ d₂ : Decoder) : Prop :=
  d₁.som = d₂.som ∧ d₁.len = d₂.len ∧ ∀ k, k < d₁.len.toNat → Memory.read d₁.buf k = Memory.read d₂.buf k

/-- One step of each of two decoders, on the same byte: the same event, decoders that agree, and after FRAME the same
frame. -/
def StepsAlike (P : Params) (d₁ d₂ : Decoder) (b : Byte) : Prop :=
  ∃ d₁' d₂' e, byteStep P d₁ b = .next (d₁', e) ∧ byteStep P d₂ b = .next (d₂', e) ∧ d₁'.Agree P d₂' ∧
    (e = .frame → d₁'.SameFrame d₂')

/-- R63, R64: in IDLE the byte alone decides. -/
theorem stepsAlike_idle (P : Params) {d₁ d₂ : Decoder} (h₁ : d₁.st = .idle) (h₂ : d₂.st = .idle) (b : Byte) :
    StepsAlike P d₁ d₂ b := by
  have hstep₁ := byteStep_outside_eq P b (.inl h₁)
  have hstep₂ := byteStep_outside_eq P b (.inl h₂)
  by_cases hb : b = P.startMarker
  · rw [if_pos hb] at hstep₁ hstep₂
    exact ⟨_, _, _, hstep₁, hstep₂, by constructor <;> simp, by simp⟩
  · rw [if_neg hb] at hstep₁ hstep₂
    exact ⟨_, _, _, hstep₁, hstep₂, agree_of_idle rfl rfl, by simp⟩

/-- R65 to R67: LENGTH writes every register a payload step reads, from the byte and the accumulator. -/
theorem stepsAlike_waitLen {P : Params} {d₁ d₂ : Decoder} (h : d₁.Agree P d₂) (hp : d₁.st = .waitLen) (b : Byte) :
    StepsAlike P d₁ d₂ b := by
  have hstep₁ := byteStep_waitLen_eq P b hp
  have hstep₂ := byteStep_waitLen_eq P b (h.phase ▸ hp)
  obtain ⟨hsom, hacc⟩ := h.frame (by simp [hp])
  refine ⟨_, _, _, hstep₁, hstep₂, ?_, fun he => by split at he <;> cases he⟩
  by_cases hb : b = 0#8
  · exact agree_of_idle (if_pos hb) (if_pos hb)
  · have hpos : 0 < b.toNat := one_le_of_ne_zero b hb
    constructor <;> simp [hb, hsom, hacc, hpos]

/-- R25: the cells after a payload byte that is stored. -/
theorem read_afterPayload {d : Decoder} (ho : d.ovf = false) (b : Byte) (k : Nat) :
    Memory.read (d.afterPayload b).buf k = if k = d.cnt.toNat then some b else Memory.read d.buf k := by
  simp [Decoder.afterPayload, ho, read_write]

/-- R68 to R72: the event of a payload byte reads registers that agree. -/
theorem Decoder.Agree.payloadEvent_eq {P : Params} {d₁ d₂ : Decoder} (h : d₁.Agree P d₂) (hp : d₁.st = .waitPayload)
    (b : Byte) : d₁.payloadEvent b = d₂.payloadEvent b := by
  obtain ⟨-, hacc⟩ := h.frame (by simp [hp])
  obtain ⟨hlen, hcnt, hovf⟩ := h.payload hp
  simp only [Decoder.payloadEvent, hlen, hcnt, hovf, hacc]

/-- R25, R68: a stored byte goes to the same cell of both buffers. -/
theorem Decoder.Agree.read_afterPayload_eq {P : Params} {d₁ d₂ : Decoder} (h : d₁.Agree P d₂)
    (hp : d₁.st = .waitPayload) (ho : d₁.ovf = false) (b : Byte) {k : Nat} (hk : k < d₁.cnt.toNat + 1) :
    Memory.read (d₁.afterPayload b).buf k = Memory.read (d₂.afterPayload b).buf k := by
  obtain ⟨-, hcnt, hovf⟩ := h.payload hp
  rw [read_afterPayload ho, read_afterPayload (hovf ▸ ho), ← hcnt]
  by_cases hlast : k = d₁.cnt.toNat
  · rw [if_pos hlast, if_pos hlast]
  · rw [if_neg hlast, if_neg hlast]
    exact h.stored hp ho k (by omega)

/-- R68, R69: a payload byte before the last one keeps the agreement. -/
theorem Decoder.Agree.afterPayload {P : Params} {d₁ d₂ : Decoder} (h : d₁.Agree P d₂) (hp : d₁.st = .waitPayload)
    (hmore : d₁.cnt.toNat + 1 ≠ d₁.len.toNat) (b : Byte) : (d₁.afterPayload b).Agree P (d₂.afterPayload b) := by
  obtain ⟨hsom, hacc⟩ := h.frame (by simp [hp])
  obtain ⟨hlen, hcnt, hovf⟩ := h.payload hp
  obtain ⟨hlt, hcap⟩ := h.room hp
  have hst₁ : (d₁.afterPayload b).st = .waitPayload := if_neg hmore
  have hst₂ : (d₂.afterPayload b).st = .waitPayload := if_neg (hcnt ▸ hlen ▸ hmore)
  have hcount : (d₁.afterPayload b).cnt.toNat = d₁.cnt.toNat + 1 := toNat_count _ _ hlt
  refine ⟨hst₁.trans hst₂.symm, by simp [hst₁], fun _ => ⟨hsom, congrArg (· + b) hacc⟩,
    fun _ => ⟨hlen, congrArg (· + 1#8) hcnt, hovf⟩, fun _ => ⟨?_, hcap⟩, fun _ ho k hk => ?_⟩
  · rw [hcount]
    exact lt_of_le_of_ne hlt hmore
  · exact h.read_afterPayload_eq hp ho b (hcount ▸ hk)

/-- R68 to R72: a payload step reads only what agrees, and writes the same cell. -/
theorem stepsAlike_waitPayload {P : Params} {d₁ d₂ : Decoder} (h : d₁.Agree P d₂) (hp : d₁.st = .waitPayload)
    (b : Byte) : StepsAlike P d₁ d₂ b := by
  obtain ⟨hsom, -⟩ := h.frame (by simp [hp])
  obtain ⟨hlen, hcnt, hovf⟩ := h.payload hp
  obtain ⟨hlt, hcap⟩ := h.room hp
  have hstep₁ := byteStep_waitPayload_eq P b hp fun ho => lt_of_lt_of_le hlt (hcap ho)
  have hstep₂ := byteStep_waitPayload_eq P b (h.phase ▸ hp) fun ho =>
    hcnt ▸ lt_of_lt_of_le hlt (hcap (hovf.trans ho))
  rw [← h.payloadEvent_eq hp] at hstep₂
  refine ⟨_, _, _, hstep₁, hstep₂, ?_, fun he => ?_⟩
  · by_cases hlast : d₁.cnt.toNat + 1 = d₁.len.toNat
    · exact agree_of_idle (if_pos hlast) (if_pos (hcnt ▸ hlen ▸ hlast))
    · exact h.afterPayload hp hlast b
  · obtain ⟨-, ho, hlast, -⟩ := byteStep_frame (he ▸ hstep₁)
    exact ⟨hsom, hlen, fun k hk => h.read_afterPayload_eq hp ho b (hlast ▸ hk)⟩

/-- R23: decoders that agree step alike on every byte. -/
theorem Decoder.Agree.stepsAlike {P : Params} {d₁ d₂ : Decoder} (h : d₁.Agree P d₂) (b : Byte) :
    StepsAlike P d₁ d₂ b := by
  cases hp : d₁.st with
  | idle => exact stepsAlike_idle P hp (h.phase ▸ hp) b
  | waitLen => exact stepsAlike_waitLen h hp b
  | waitPayload => exact stepsAlike_waitPayload h hp b
  | unused => exact absurd hp h.used

/-- R23: a stream keeps the agreement, with the same events on both sides. -/
theorem Decoder.Agree.feed_alike {P : Params} {d₁ d₂ : Decoder} (h : d₁.Agree P d₂) (bs : List Byte) :
    ∃ d₁' d₂' es, feed P d₁ bs = .next (d₁', es) ∧ feed P d₂ bs = .next (d₂', es) ∧ d₁'.Agree P d₂' ∧
      (es.getLast? = some .frame → d₁'.SameFrame d₂') := by
  induction bs using List.reverseRecOn with
  | nil => exact ⟨d₁, d₂, [], rfl, rfl, h, by simp⟩
  | append_singleton bs b ih =>
    obtain ⟨u₁, u₂, es, hfeed₁, hfeed₂, hagree, -⟩ := ih
    obtain ⟨v₁, v₂, e, hstep₁, hstep₂, hagree', hframe⟩ := hagree.stepsAlike b
    exact ⟨v₁, v₂, es ++ [e], feed_concat hfeed₁ hstep₁, feed_concat hfeed₂ hstep₂, hagree', by simpa using hframe⟩

/-- Settles O55: two decoders in IDLE agree, and agreement is kept along the stream. -/
theorem hiddenRegistersDoNotShow : Obligations.HiddenRegistersDoNotShow := by
  intro P d₁ d₂ bs h₁ h₂
  obtain ⟨d₁', d₂', es, hfeed₁, hfeed₂, hagree, hframe⟩ := (agree_of_idle (P := P) h₁ h₂).feed_alike bs
  exact ⟨d₁', d₂', es, hfeed₁, hfeed₂, hagree.phase, hagree.frame, hagree.payload, hframe⟩

end Sys2Proof.Machine
end

section
/-! SUPPORT. Runs of clock edges (R97, R104): one edge and then the rest, held events, the refinement of STEP, and a
served stream. -/

namespace Sys2Proof.Machine

/-- The first edge and then the rest. -/
theorem edges_succ {s u : State} (n : Nat) (h : step s = .next u) : edges (n + 1) s = edges n u := by
  simp only [edges, h]

theorem takenBytes_succ {s u : State} (n : Nat) (h : step s = .next u) :
    takenBytes (n + 1) s = if s.handshake then s.inputPins.inData :: takenBytes n u else takenBytes n u := by
  simp only [takenBytes, h]

theorem stepEvents_succ {s u : State} (n : Nat) (h : step s = .next u) :
    stepEvents (n + 1) s = if s.handshake then u.ev.event :: stepEvents n u else stepEvents n u := by
  simp only [stepEvents, h]

/-- Edges that answer a state answer one at their first edge. -/
theorem step_of_edges_succ {n : Nat} {s t : State} (h : edges (n + 1) s = .next t) :
    ∃ u, step s = .next u ∧ edges n u = .next t := by
  cases hu : step s with
  | next u => exact ⟨u, rfl, edges_succ n hu ▸ h⟩
  | fault f => simp [edges, hu] at h
  | refused r => simp [edges, hu] at h

/-- What holds of the driven pins and of quiet ones holds of the pins of the coming edge. -/
theorem inputPins_of_forall {s : State} {Q : Pins → Prop} (hquiet : Q Pins.quiet) (h : ∀ p ∈ s.pins, Q p) :
    Q s.inputPins := by
  rw [State.inputPins]
  cases hp : s.pins with
  | nil => exact hquiet
  | cons p ps => exact h p (by simp [hp])

/-- Every edge uses up its pins (log entry 6). -/
theorem step_pins {s t : State} (h : step s = .next t) : t.pins = s.pins.tail := by
  rcases step_cases h with ⟨-, rfl⟩ | ⟨-, -, -, -, -, rfl⟩ | ⟨-, -, -, -, -, rfl⟩ | ⟨-, -, hx⟩ | ⟨-, -, -, -, rfl⟩
  · rfl
  · rfl
  · rfl
  · rw [exec_frame hx]; rfl
  · rfl

/-- R82, R96: an edge without reset or `ev_ready` holds a pending event and the decoder. -/
theorem step_holds {s u : State} (hv : s.ev.valid = true) (hr : s.inputPins.rst = false)
    (hready : s.inputPins.evReady = false) (h : step s = .next u) : u = s.tick := by
  rcases step_cases h with ⟨hr', -⟩ | ⟨-, -, -, -, hready', -⟩ | ⟨-, -, -, -, -, hu⟩ | ⟨hh, -⟩ | ⟨-, -, -, -, hu⟩
  · simp [hr] at hr'
  · simp [hready] at hready'
  · exact hu
  · obtain ⟨-, -, hv'⟩ := (handshake_iff s).mp hh
    simp [hv] at hv'
  · exact hu

/-- R85, R95: no byte is taken while an event is pending. -/
theorem handshake_of_pending {s : State} (hv : s.ev.valid = true) : s.handshake = false := by
  simp [State.handshake, State.inReady, hv]

/-- Settles O47: by induction on the edges, each of which changes the pins and the edge number alone. -/
theorem unretiredEventHoldsTheBlock : Obligations.UnretiredEventHoldsTheBlock := by
  intro n
  induction n with
  | zero => intro s t _ _ h; cases h; exact ⟨rfl, rfl, rfl⟩
  | succ n ih =>
    intro s t hv hpins h
    obtain ⟨u, hu, hrest⟩ := step_of_edges_succ h
    obtain ⟨hr, hready⟩ := inputPins_of_forall (Q := fun p => p.rst = false ∧ p.evReady = false) ⟨rfl, rfl⟩ hpins
    rw [takenBytes_succ n hu, handshake_of_pending hv]
    obtain rfl := step_holds hv hr hready hu
    exact ih s.tick t hv (fun p hp => hpins p (List.mem_of_mem_tail hp)) hrest

/-- R94, R96: an edge that takes a byte makes a STEP, whose event the register then holds. -/
theorem byteStep_of_handshake_event {s u : State} (hh : s.handshake = true) (h : step s = .next u) :
    byteStep s.params s.dec s.inputPins.inData = .next (u.dec, u.ev.event) := by
  obtain ⟨-, -, hv⟩ := (handshake_iff s).mp hh
  obtain ⟨d, e, hstep, rfl⟩ := byteStep_of_handshake hh h
  rw [event_load _ _ e hv (fun c hc => (byteStep_ascii (hc ▸ hstep)).1)]
  exact hstep

/-- Settles O56: by induction on the edges; the first one takes a byte by STEP or leaves the decoder. -/
theorem wrapperRefinesTheByteStepModel : Obligations.WrapperRefinesTheByteStepModel := by
  intro n
  induction n with
  | zero => exact fun s _ _ => ⟨s, rfl, rfl⟩
  | succ n ih =>
    intro s hs hpins
    obtain ⟨u, hu⟩ := step_completes hs
    have hr : s.inputPins.rst = false := inputPins_of_forall (Q := fun p => p.rst = false) rfl hpins
    obtain ⟨t, hedges, hfeed⟩ := ih u (everyEdgeKeepsTheInvariant s u hs hu)
      (fun p hp => hpins p (List.mem_of_mem_tail (step_pins hu ▸ hp)))
    rw [step_params hu] at hfeed
    refine ⟨t, (edges_succ n hu).trans hedges, ?_⟩
    rw [takenBytes_succ n hu, stepEvents_succ n hu]
    cases hh : s.handshake with
    | true => exact feed_cons (byteStep_of_handshake_event hh hu) hfeed
    | false => exact step_dec_of_no_handshake hh hu hr ▸ hfeed

/-- R104: at an edge that asserts `ev_ready` and offers no byte, nothing is left pending and the decoder stays. -/
theorem step_accept {s : State} (hs : s.Inv) (hp : s.inputPins = Pins.accept) :
    ∃ u, step s = .next u ∧ u.dec = s.dec ∧ u.ev.valid = false := by
  have hr : s.inputPins.rst = false := by rw [hp]; rfl
  cases hv : s.ev.valid with
  | true =>
    have hready : s.inputPins.evReady = true := by rw [hp]; rfl
    rw [step_pending hs.booted hr hv (hs.event.kind hv), if_pos hready]
    exact ⟨_, rfl, rfl, rfl⟩
  | false => exact ⟨_, step_idle_pins hs.booted hr hv (by rw [hp]; rfl), rfl, hv⟩

/-- R104, R106: two edges take a byte by STEP and retire its event, if any. -/
theorem served_byte {s : State} {b : Byte} {ps : List Pins} (hs : s.Inv) (hv : s.ev.valid = false)
    (hp : s.pins = Pins.offer b :: Pins.accept :: ps) :
    ∃ v e, v.Inv ∧ v.params = s.params ∧ v.ev.valid = false ∧ v.pins = ps ∧
      byteStep s.params s.dec b = .next (v.dec, e) ∧ (∀ n, edges (n + 2) s = edges n v) ∧
      ∀ n, takenBytes (n + 2) s = b :: takenBytes n v := by
  have hoffer : s.inputPins = Pins.offer b := by rw [State.inputPins, hp]; rfl
  have hh : s.handshake = true := (handshake_iff s).mpr (by rw [hoffer]; exact ⟨rfl, rfl, hv⟩)
  obtain ⟨u, hu⟩ := step_completes hs
  have hus := everyEdgeKeepsTheInvariant s u hs hu
  have hup : u.pins = Pins.accept :: ps := by rw [step_pins hu, hp]; rfl
  have haccept : u.inputPins = Pins.accept := by rw [State.inputPins, hup]; rfl
  have hnone : u.handshake = false := by rw [State.handshake, haccept]; rfl
  obtain ⟨v, hstep, hdec, hvv⟩ := step_accept hus haccept
  refine ⟨v, u.ev.event, everyEdgeKeepsTheInvariant u v hus hstep, (step_params hstep).trans (step_params hu), hvv, ?_,
    ?_, fun n => ?_, fun n => ?_⟩
  · rw [step_pins hstep, hup]; rfl
  · have hbyte := byteStep_of_handshake_event hh hu
    rw [hoffer] at hbyte
    exact hdec ▸ hbyte
  · rw [edges_succ _ hu, edges_succ _ hstep]
  · rw [takenBytes_succ _ hu, takenBytes_succ _ hstep, hh, hnone, hoffer]
    rfl

/-- Settles O57: by induction on the stream, two edges a byte. -/
theorem servedStreamIsFullyConsumed : Obligations.ServedStreamIsFullyConsumed := by
  intro bs
  induction bs with
  | nil => exact fun s _ hv hp => ⟨s, [], rfl, rfl, rfl, hv, hp⟩
  | cons b bs ih =>
    intro s hs hv hp
    obtain ⟨v, e, hvs, hparams, hvv, hvp, hbyte, hedges, htaken⟩ := served_byte hs hv hp
    obtain ⟨t, es, hrest, hbytes, hfeed, htv, htp⟩ := ih v hvs hvv hvp
    rw [List.length_cons, Nat.mul_succ, hedges, htaken, hbytes]
    exact ⟨t, e :: es, hrest, rfl, feed_cons hbyte (hparams ▸ hfeed), htv, htp⟩

end Sys2Proof.Machine
end
